-- ==== Sys2Proof/Word.lean ====
section
/-! DEFINITION. The word types of the block's ports and cells. -/

namespace Sys2Proof

/-- One unit of the output stream (00_scope R9: 8 bits per transfer). -/
abbrev Byte := BitVec 8

/-- A 16-bit field: a dimension, a coordinate or a channel cell (00_scope R9, 10_state R26). -/
abbrev Half := BitVec 16

/-- A command word (30_encoding R70). -/
abbrev CmdWord := BitVec 96

/-- The DATA field of a response (30_encoding R80). -/
abbrev RspData := BitVec 56

/-- A response word (30_encoding R80). -/
abbrev RspWord := BitVec 64

end Sys2Proof
end

