-- ==== Sys2Proof/Syntax.lean ====
section
/-! DEFINITION. The commands of the block, one constructor per row of spec/opcode_table.json. -/

namespace Sys2Proof

/-- A command with its operands as the command word carries them (30_encoding R70 to R72, R75).
`create` keeps the three raw bits of its encoding selector: R95 lets a word spell the illegal codes
5 to 7, which `Instr.wf` refuses. -/
inductive Instr where
  /-- CREATE, 41_image_buffer R120. -/
  | create (enc : BitVec 3) (width height v0 v1 v2 : Half)
  /-- GET, 41_image_buffer R122. -/
  | get (x y : Half)
  /-- SET, 41_image_buffer R124. -/
  | set (x y v0 v1 v2 : Half)
  /-- GETCH, 40_pixel_model R107. -/
  | getch (x y : Half) (ch : BitVec 4)
  /-- SETCH, 40_pixel_model R108. -/
  | setch (x y : Half) (ch : BitVec 4) (v : Half)
  /-- INFO, 41_image_buffer R126. -/
  | info
  /-- SERT, 42_serializer R150. -/
  | sert
  /-- SERB, 42_serializer R151. -/
  | serb
  deriving DecidableEq, Repr

end Sys2Proof
end

