-- ==== Sys2Proof/WellFormed.lean ====
section
/-! DEFINITION. Which commands a legal word can carry. -/

namespace Sys2Proof

/-- A command is well formed unless it is a CREATE with ENC 5, 6 or 7 (30_encoding R71, R77). Every
other operand of every command is legal at each value its field admits: a channel index of 3 to 15
decodes and fails at execution (R71), and so does an illegal channel value (R76). -/
def Instr.wf : Instr → Bool
  | .create enc _ _ _ _ _ => enc.toNat ≤ 4
  | .get _ _ => true
  | .set _ _ _ _ _ => true
  | .getch _ _ _ => true
  | .setch _ _ _ _ => true
  | .info => true
  | .sert => true
  | .serb => true

end Sys2Proof
end

