-- ==== Sys2Proof/Decode.lean ====
section
/-! DEFINITION. From a command word to a command, total on all 96-bit words, and back. -/

namespace Sys2Proof

/-- Why a word is illegal (30_encoding R77). The block answers ERR_ILLEGAL in every case. -/
inductive DecodeReject where
  /-- OP is 0x0 or 0x8 to 0xF. -/
  | opcodeIllegal
  /-- RSV is not 0. -/
  | rsvNonZero
  /-- A field the opcode does not use is not 0 (30_encoding R76). -/
  | reservedFieldNonZero
  /-- A CREATE with SEL[2:0] = 5, 6 or 7. -/
  | encodingIllegal
  deriving DecidableEq, Repr

/-! The fields of the command word, 30_encoding R70. -/

/-- `OP`, bits 3:0. -/
def fieldOP (w : CmdWord) : BitVec 4 := w.extractLsb' 0 4
/-- `SEL`, bits 7:4. -/
def fieldSEL (w : CmdWord) : BitVec 4 := w.extractLsb' 4 4
/-- `A`, bits 23:8. -/
def fieldA (w : CmdWord) : Half := w.extractLsb' 8 16
/-- `B`, bits 39:24. -/
def fieldB (w : CmdWord) : Half := w.extractLsb' 24 16
/-- `V0`, bits 55:40. -/
def fieldV0 (w : CmdWord) : Half := w.extractLsb' 40 16
/-- `V1`, bits 71:56. -/
def fieldV1 (w : CmdWord) : Half := w.extractLsb' 56 16
/-- `V2`, bits 87:72. -/
def fieldV2 (w : CmdWord) : Half := w.extractLsb' 72 16
/-- `RSV`, bits 95:88. -/
def fieldRSV (w : CmdWord) : BitVec 8 := w.extractLsb' 88 8

/-- `SEL[2:0]`, the ENC operand of CREATE (30_encoding R71). -/
def selEnc (sel : BitVec 4) : BitVec 3 := sel.extractLsb' 0 3
/-- `SEL[3]`, reserved in CREATE (30_encoding R71). -/
def selTop (sel : BitVec 4) : BitVec 1 := sel.extractLsb' 3 1
/-- `SEL[3:1]`, reserved in SERIALIZE (30_encoding R71). -/
def selHigh (sel : BitVec 4) : BitVec 3 := sel.extractLsb' 1 3
/-- `SEL[0]`, MODE of SERIALIZE (30_encoding R74). -/
def selMode (sel : BitVec 4) : BitVec 1 := sel.extractLsb' 0 1

/-- The decoder, 30_encoding R78: decided from the word alone. -/
def decode (w : CmdWord) : Except DecodeReject Instr :=
  let sel := fieldSEL w
  let a := fieldA w
  let b := fieldB w
  let v0 := fieldV0 w
  let v1 := fieldV1 w
  let v2 := fieldV2 w
  if fieldRSV w ≠ 0 then .error .rsvNonZero
  else match (fieldOP w).toNat with
    | 1 =>
      if selTop sel ≠ 0 then .error .reservedFieldNonZero
      else if (selEnc sel).toNat > 4 then .error .encodingIllegal
      else .ok (.create (selEnc sel) a b v0 v1 v2)
    | 2 =>
      if sel ≠ 0 ∨ v0 ≠ 0 ∨ v1 ≠ 0 ∨ v2 ≠ 0 then .error .reservedFieldNonZero
      else .ok (.get a b)
    | 3 =>
      if sel ≠ 0 then .error .reservedFieldNonZero
      else .ok (.set a b v0 v1 v2)
    | 4 =>
      if v0 ≠ 0 ∨ v1 ≠ 0 ∨ v2 ≠ 0 then .error .reservedFieldNonZero
      else .ok (.getch a b sel)
    | 5 =>
      if v1 ≠ 0 ∨ v2 ≠ 0 then .error .reservedFieldNonZero
      else .ok (.setch a b sel v0)
    | 6 =>
      if sel ≠ 0 ∨ a ≠ 0 ∨ b ≠ 0 ∨ v0 ≠ 0 ∨ v1 ≠ 0 ∨ v2 ≠ 0 then .error .reservedFieldNonZero
      else .ok .info
    | 7 =>
      if selHigh sel ≠ 0 ∨ a ≠ 0 ∨ b ≠ 0 ∨ v0 ≠ 0 ∨ v1 ≠ 0 ∨ v2 ≠ 0 then
        .error .reservedFieldNonZero
      else if selMode sel = 0 then .ok .sert else .ok .serb
    | _ => .error .opcodeIllegal

/-- The eight fields of a command word put in their places, RSV as 0 (30_encoding R70). -/
def packWord (op sel : BitVec 4) (a b v0 v1 v2 : Half) : CmdWord :=
  0#8 ++ v2 ++ v1 ++ v0 ++ b ++ a ++ sel ++ op

/-- The word of a command, from the operand syntax of 30_encoding R95. -/
def encode : Instr → CmdWord
  | .create enc w h v0 v1 v2 => packWord 1 (0#1 ++ enc) w h v0 v1 v2
  | .get x y => packWord 2 0 x y 0 0 0
  | .set x y v0 v1 v2 => packWord 3 0 x y v0 v1 v2
  | .getch x y ch => packWord 4 ch x y 0 0 0
  | .setch x y ch v => packWord 5 ch x y v 0 0
  | .info => packWord 6 0 0 0 0 0 0
  | .sert => packWord 7 0 0 0 0 0 0
  | .serb => packWord 7 1 0 0 0 0 0

/-- The command word whose low `nbits` bits are those of `w`, every bit above 0; none where that is
no 96-bit word. There is one length and a word has no byte order (30_encoding R79, 20_memory R56). -/
def tableWord (nbits w : Nat) : Option CmdWord :=
  let v := w % 2 ^ nbits
  if v < 2 ^ 96 then some (BitVec.ofNat 96 v) else none

/-- The command the decoder reads from a word numbered as spec/opcode_table.json numbers it. -/
def decodeTableWord (nbits w : Nat) : Option Instr :=
  match tableWord nbits w with
  | none => none
  | some c =>
    match decode c with
    | .ok i => some i
    | .error _ => none

end Sys2Proof
end

