-- ==== Sys2Proof/Config.lean ====
section
/-! DEFINITION. What an implementation of the block fixes: its one open parameter. -/

namespace Sys2Proof

/-- The parameters of one implementation (00_scope R9). Every other entry of R9's table is fixed.
The value stands in State (field `cfg`), so that every statement quantifies over it and no proof can
lean on one value (log entry 4). -/
structure Config where
  /-- PIX_CAPACITY, the number of pixel entries the store holds (92_eei D14: a number >= 1). -/
  pixCapacity : Nat
  deriving DecidableEq, Repr

/-- A conforming block: PIX_CAPACITY is 65535 * 65535 (00_scope R9, 90_conflicts C4). -/
def Config.conforming : Config := ⟨4294836225⟩

end Sys2Proof
end

