-- ==== Sys2Proof/Machine/State.lean ====
section
/-! DEFINITION. The state of the block, its parameter, and the environment's side of its ports. -/

namespace Sys2Proof.Machine

/-- The five pixel encodings (00_scope R3, 30_encoding R73). No sixth exists, so the codes 5 to 7,
which ENC never holds (10_state R23), have no value here (log entry 12). -/
inductive Enc where
  | bilevel | gray8 | gray16 | rgb8 | rgb16
  deriving DecidableEq, Repr

/-- One entry of the pixel store: three 16-bit cells (10_state R26, 92_eei D31). -/
structure Pixel where
  c0 : Half
  c1 : Half
  c2 : Half
  deriving DecidableEq, Repr

/-- `count` consecutive entries of the pixel store that hold the same pixel. -/
structure Run where
  count : Nat
  pixel : Pixel
  deriving DecidableEq, Repr

/-- The pixel store PIX (10_state R26) as its runs in index order: the first run holds the entries
from index 0, the next run those after it, and so on. In the canonical form `Memory.wf` no run is
empty and neighbours differ, so equal stores are equal lists (log entry 1). -/
abbrev Memory := List Run

/-- The input levels the environment drives during one step (10_state R33). -/
structure Tick where
  /-- `rst`. -/
  rst : Bool
  /-- `cmd_valid`: the host presents the head of `cmdq`, if there is one. -/
  cmdValid : Bool
  /-- `rsp_ready`. -/
  rspReady : Bool
  /-- `out_ready`. -/
  outReady : Bool
  deriving DecidableEq, Repr

/-- The environment keeps its duties (92_eei D27): no reset, every port served. -/
def Tick.go : Tick := ⟨false, true, true, true⟩

/-- One transfer on `out`: `out_data` with `out_last` (10_state R33, R37). -/
structure OutTransfer where
  data : Byte
  last : Bool
  deriving DecidableEq, Repr

/-- Why the machine stops. -/
inductive Fault where
  /-- An access to a pixel entry the store does not have. Raised by GET, SET, GETCH, SETCH, SERT and
  SERB in a state whose store has not exactly WIDTH * HEIGHT entries, which the invariant of 10_state
  R28 rules out. Safe: the model stops where the spec gives no behaviour (log entry 3). -/
  | pixelMissing
  deriving DecidableEq, Repr

/-- Why an instruction has no meaning. -/
inductive Refusal where
  /-- An arm of `exec` without a meaning yet. Safe. No arm raises it now. -/
  | notModelled (mnemonic : String)
  deriving DecidableEq, Repr

/-- The state: the tuple of 10_state R38 with the response it holds back, the parameter
PIX_CAPACITY, and the environment's side of the ports as plain data. -/
structure State where
  /-- LIVE, 10_state R22. -/
  live : Bool
  /-- ENC, 10_state R23. -/
  enc : Enc
  /-- WIDTH, 10_state R24. -/
  width : Half
  /-- HEIGHT, 10_state R25. -/
  height : Half
  /-- PIX, 10_state R26. -/
  pix : Memory
  /-- BUSY, 10_state R30. -/
  busy : Bool
  /-- OUTQ, 10_state R29, next byte first. -/
  outq : List Byte
  /-- RSPQ, 10_state R31. -/
  rspq : Option RspWord
  /-- The response a SERIALIZE holds until its last byte is transferred, 10_state R36, R38. -/
  held : Option RspWord
  /-- PIX_CAPACITY, a parameter: no step changes it (00_scope R9, log entry 4). -/
  cfg : Config
  /-- The host: the words it has still to present on `cmd`, oldest first (log entry 6). -/
  cmdq : List CmdWord
  /-- The environment: the input levels of the coming steps (log entry 5). -/
  ticks : List Tick
  /-- The host: the responses it has received, oldest first (70_reset R247, log entry 11). -/
  hostGot : List RspWord
  /-- The sink: the transfers it has accepted, oldest first (70_reset R247, log entry 11). -/
  sinkGot : List OutTransfer
  deriving DecidableEq, Repr

/-- The state after reset (10_state R39, 70_reset R230), of a conforming block, with an environment
that presents nothing and has seen nothing. -/
def State.reset : State where
  live := false
  enc := .bilevel
  width := 0
  height := 0
  pix := []
  busy := false
  outq := []
  rspq := none
  held := none
  cfg := Config.conforming
  cmdq := []
  ticks := []
  hostGot := []
  sinkGot := []

end Sys2Proof.Machine
end

