-- ==== Sys2Proof/Machine/Operands.lean ====
section
/-! DEFINITION. The traits of the encodings and every check and address a command makes of its
operands. All arithmetic is on natural numbers (00_scope R11). -/

namespace Sys2Proof.Machine

/-! ## The traits of the encodings, 40_pixel_model R100 -/

/-- The code of an encoding (30_encoding R73). -/
def Enc.code : Enc → BitVec 3
  | .bilevel => 0
  | .gray8 => 1
  | .gray16 => 2
  | .rgb8 => 3
  | .rgb16 => 4

/-- The encoding of a code; 5, 6 and 7 are illegal (30_encoding R73). -/
def Enc.ofCode? (c : BitVec 3) : Option Enc :=
  match c.toNat with
  | 0 => some .bilevel
  | 1 => some .gray8
  | 2 => some .gray16
  | 3 => some .rgb8
  | 4 => some .rgb16
  | _ => none

/-- componentCount (40_pixel_model R100). -/
def Enc.componentCount : Enc → Nat
  | .bilevel => 1
  | .gray8 => 1
  | .gray16 => 1
  | .rgb8 => 3
  | .rgb16 => 3

/-- maxValue, absent for bi-level (40_pixel_model R101). -/
def Enc.maxValue : Enc → Option Nat
  | .bilevel => none
  | .gray8 => some 255
  | .gray16 => some 65535
  | .rgb8 => some 255
  | .rgb16 => some 65535

/-- chanMax, the largest value of a channel (40_pixel_model R102). -/
def Enc.chanMax : Enc → Nat
  | .bilevel => 1
  | .gray8 => 255
  | .gray16 => 65535
  | .rgb8 => 255
  | .rgb16 => 65535

/-- chanBits, the storage width of a channel (40_pixel_model R100). -/
def Enc.chanBits : Enc → Nat
  | .bilevel => 1
  | .gray8 => 8
  | .gray16 => 16
  | .rgb8 => 8
  | .rgb16 => 16

/-- textFormatId (40_pixel_model R100, 30_encoding R84). -/
def Enc.textFormatId : Enc → Nat
  | .bilevel => 1
  | .gray8 => 2
  | .gray16 => 2
  | .rgb8 => 3
  | .rgb16 => 3

/-- binaryFormatId (40_pixel_model R100, 30_encoding R84). -/
def Enc.binaryFormatId : Enc → Nat
  | .bilevel => 4
  | .gray8 => 5
  | .gray16 => 5
  | .rgb8 => 6
  | .rgb16 => 6

/-! ## Channels of a pixel, 40_pixel_model R104 -/

/-- The channel indices of an encoding in encoding order: 0, or 0, 1, 2 for R, G, B. -/
def Enc.channels (e : Enc) : List (Fin 3) :=
  if e.componentCount = 3 then [0, 1, 2] else [0]

/-- `p[c]`. -/
def Pixel.chan (p : Pixel) : Fin 3 → Half
  | 0 => p.c0
  | 1 => p.c1
  | 2 => p.c2

/-- `p[c := v]` (00_scope R13). -/
def Pixel.withChan (p : Pixel) (c : Fin 3) (v : Half) : Pixel :=
  match c with
  | 0 => { p with c0 := v }
  | 1 => { p with c1 := v }
  | 2 => { p with c2 := v }

/-- The all-zero pixel, the default value of every encoding (40_pixel_model R105). -/
def Pixel.zero : Pixel := ⟨0, 0, 0⟩

/-! ## Checks -/

/-- The channel check: the index as a channel of `e`, none where `ch >= componentCount(e)`
(20_memory R53). -/
def channel? (e : Enc) (ch : BitVec 4) : Option (Fin 3) :=
  if e.componentCount ≤ ch.toNat then none
  else match ch.toNat with
    | 0 => some 0
    | 1 => some 1
    | 2 => some 2
    | _ => none

/-- The value check of one channel, as SETCH makes it (40_pixel_model R108). -/
def chanOK (e : Enc) (v : Half) : Bool := v.toNat ≤ e.chanMax

/-- ValueOK (40_pixel_model R103). -/
def valueOK (e : Enc) (p : Pixel) : Bool :=
  chanOK e p.c0 &&
    (if e.componentCount = 3 then chanOK e p.c1 && chanOK e p.c2
     else p.c1 == 0 && p.c2 == 0)

/-- `xbad(x)` (20_memory R52). -/
def xbad (s : State) (x : Half) : Bool := s.width.toNat ≤ x.toNat

/-- `ybad(y)` (20_memory R52). -/
def ybad (s : State) (y : Half) : Bool := s.height.toNat ≤ y.toNat

/-! ## Addresses -/

/-- `idx(x, y)` in a buffer `width` pixels wide (20_memory R51). -/
def idx (width x y : Nat) : Nat := y * width + x

/-- The entry a command with coordinates `x`, `y` names. -/
def pixelIndex (s : State) (x y : Half) : Nat := idx s.width.toNat x.toNat y.toNat

/-- The number of entries a buffer of these dimensions has (10_state R26). -/
def pixelCount (s : State) : Nat := s.width.toNat * s.height.toNat

end Sys2Proof.Machine
end

