-- ==== Sys2Proof/Machine/Flags.lean ====
section
/-! DEFINITION. The block keeps no flags (10_state R32). Its only status is that of a response word:
the STATUS codes, the detail flags of an error and the DATA of a result. -/

namespace Sys2Proof.Machine

/-- The outcomes a response reports (30_encoding R81). Codes 8 to 15 are never produced. -/
inductive Status where
  | ok | errInvalidArgument | errOutOfRange | errInvalidChannel
  | errNoBuffer | errIllegal | errBadValue | errCapacity
  deriving DecidableEq, Repr

/-- The STATUS code (30_encoding R81). -/
def Status.code : Status → BitVec 4
  | .ok => 0
  | .errInvalidArgument => 1
  | .errOutOfRange => 2
  | .errInvalidChannel => 3
  | .errNoBuffer => 4
  | .errIllegal => 5
  | .errBadValue => 6
  | .errCapacity => 7

/-- `zext_56(v)` (00_scope R11). Every value it is used on fits. -/
def zext56 (v : Nat) : RspData := BitVec.ofNat 56 v

/-- The response word: STATUS in bits 3:0, RSVR 0 in bits 7:4, DATA in bits 63:8 (30_encoding R80). -/
def responseWord (st : Status) (d : RspData) : RspWord := d ++ 0#4 ++ st.code

/-- 1 for a condition that holds, else 0. -/
def flag (b : Bool) : Nat := if b then 1 else 0

/-- `oor(x, y)`, both bounds checks (60_exceptions R202). -/
def oorDetail (s : State) (x y : Half) : RspData :=
  zext56 (flag (xbad s x) + flag (ybad s y) * 2)

/-- Both dimension checks of CREATE (60_exceptions R201). -/
def argDetail (w h : Half) : RspData := zext56 (flag (w == 0) + flag (h == 0) * 2)

/-- DATA of a successful GET (41_image_buffer R122). -/
def getData (p : Pixel) : RspData :=
  zext56 (p.c0.toNat + p.c1.toNat * 2 ^ 16 + p.c2.toNat * 2 ^ 32)

/-- DATA of INFO (41_image_buffer R126). -/
def infoData (s : State) : RspData :=
  zext56 (s.width.toNat + s.height.toNat * 2 ^ 16 + s.enc.code.toNat * 2 ^ 32 + flag s.live * 2 ^ 35)

end Sys2Proof.Machine
end

