-- ==== Sys2Proof/Machine/Ops.lean ====
section
/-! DEFINITION. The shared operations: the pixel store, responding and raising an error, starting a
serialization, and the checks the access commands share. -/

namespace Sys2Proof.Machine

/-! ## The pixel store -/

/-- The canonical form: no empty run, no two neighbours with the same pixel (log entry 1). -/
def Memory.wf : Memory → Bool
  | [] => true
  | [r] => r.count != 0
  | r :: q :: rest => r.count != 0 && r.pixel != q.pixel && Memory.wf (q :: rest)

/-- How many entries the store has. -/
def Memory.size : Memory → Nat
  | [] => 0
  | r :: rest => r.count + Memory.size rest

/-- The store as the flat sequence of entries of 10_state R26. -/
def Memory.toList : Memory → List Pixel
  | [] => []
  | r :: rest => List.replicate r.count r.pixel ++ Memory.toList rest

/-- `n` entries `p` before those of `m`, in canonical form. -/
def Memory.push (n : Nat) (p : Pixel) (m : Memory) : Memory :=
  if n = 0 then m
  else match m with
    | [] => [⟨n, p⟩]
    | r :: rest => if r.pixel = p then ⟨n + r.count, p⟩ :: rest else ⟨n, p⟩ :: r :: rest

/-- A store of `n` entries `p`: what CREATE leaves after writing every entry (41_image_buffer R120). -/
def Memory.fill (n : Nat) (p : Pixel) : Memory := Memory.push n p []

/-- `PixRead(i)` (00_scope R13), none where entry `i` does not exist. -/
def Memory.read : Memory → Nat → Option Pixel
  | [], _ => none
  | r :: rest, i => if i < r.count then some r.pixel else Memory.read rest (i - r.count)

/-- `PixWrite(i, p)` (00_scope R13): entry `i` becomes `p`, every other entry stays. A store without
entry `i` stays as it is. -/
def Memory.write : Memory → Nat → Pixel → Memory
  | [], _, _ => []
  | r :: rest, i, p =>
    if i < r.count then
      Memory.push i r.pixel (Memory.push 1 p (Memory.push (r.count - 1 - i) r.pixel rest))
    else Memory.push r.count r.pixel (Memory.write rest (i - r.count) p)

/-- The store has every entry of the buffer (10_state R28). -/
def storeComplete (s : State) : Bool := s.pix.size == pixelCount s

/-! ## Updates of the state -/

/-- `Respond(st, d)`: the response word goes into RSPQ (00_scope R13, 10_state R36). -/
def State.setResponse (s : State) (st : Status) (d : RspData) : State :=
  { s with rspq := some (responseWord st d) }

/-- `PixWrite(i, p)` on PIX. -/
def State.storePixel (s : State) (i : Nat) (p : Pixel) : State :=
  { s with pix := s.pix.write i p }

/-- The whole buffer replaced by a new one, every entry `p` (41_image_buffer R120, 92_eei D12). -/
def State.newBuffer (s : State) (e : Enc) (w h : Half) (p : Pixel) : State :=
  { s with
    live := true
    enc := e
    width := w
    height := h
    pix := Memory.fill (w.toNat * h.toNat) p }

/-- OUTQ set to the whole stream (10_state R29), and the response held until its last byte has been
transferred, with the byte count as DATA (10_state R36, 42_serializer R171). -/
def State.beginStream (s : State) (bytes : List Byte) : State :=
  { s with outq := bytes, held := some (responseWord .ok (zext56 bytes.length)) }

/-! ## Completing a command -/

/-- A command completes with a response (00_scope R13). -/
def respond (st : Status) (d : RspData) (s : State) : Host.Outcome State Fault Refusal :=
  .next (s.setResponse st d)

/-- `raise Err(code, detail)`: the block's only exception mechanism. It is given the state before any
write of the command, so nothing is undone (00_scope R13, 60_exceptions R208). No state is saved, no
mode changes and control goes nowhere (R212), and so there is no return (R213). -/
def raiseErr (st : Status) (d : RspData) (s : State) : Host.Outcome State Fault Refusal :=
  respond st d s

/-- The first check of every command that needs a buffer (60_exceptions R204, R210). -/
def withBuffer (s : State) (k : Host.Outcome State Fault Refusal) :
    Host.Outcome State Fault Refusal :=
  if s.live then k else raiseErr .errNoBuffer 0 s

/-- The checks GET, SET, GETCH and SETCH share: a buffer, then the coordinates, both at once
(60_exceptions R202, R204, R210). -/
def withCoords (s : State) (x y : Half) (k : Host.Outcome State Fault Refusal) :
    Host.Outcome State Fault Refusal :=
  withBuffer s <|
    if xbad s x || ybad s y then raiseErr .errOutOfRange (oorDetail s x y) s else k

/-- Reading the entry at checked coordinates; a store without it faults (log entry 3). -/
def withPixel (s : State) (x y : Half) (k : Pixel → Host.Outcome State Fault Refusal) :
    Host.Outcome State Fault Refusal :=
  match s.pix.read (pixelIndex s x y) with
  | none => .fault .pixelMissing
  | some p => k p

end Sys2Proof.Machine
end

