-- ==== Sys2Proof/Machine/ImageBuffer.lean ====
section
/-! DEFINITION. The image buffer commands CREATE, GET, SET and INFO (41_image_buffer). -/

namespace Sys2Proof.Machine

/-- CREATE, 41_image_buffer R120. A selector 5 to 7, which no legal word carries, completes with
ERR_ILLEGAL, the first error of the priority list (60_exceptions R205, R210, log entry 13). -/
def execCreate (enc : BitVec 3) (w h v0 v1 v2 : Half) (s : State) :
    Host.Outcome State Fault Refusal :=
  match Enc.ofCode? enc with
  | none => raiseErr .errIllegal 0 s
  | some e =>
    if w == 0 || h == 0 then raiseErr .errInvalidArgument (argDetail w h) s
    else if !valueOK e ⟨v0, v1, v2⟩ then raiseErr .errBadValue 0 s
    else if s.cfg.pixCapacity < w.toNat * h.toNat then raiseErr .errCapacity 0 s
    else respond .ok 0 (s.newBuffer e w h ⟨v0, v1, v2⟩)

/-- GET, 41_image_buffer R122. -/
def execGet (x y : Half) (s : State) : Host.Outcome State Fault Refusal :=
  withCoords s x y <| withPixel s x y fun p => respond .ok (getData p) s

/-- SET, 41_image_buffer R124. -/
def execSet (x y v0 v1 v2 : Half) (s : State) : Host.Outcome State Fault Refusal :=
  withCoords s x y <|
    if valueOK s.enc ⟨v0, v1, v2⟩ then
      withPixel s x y fun _ =>
        respond .ok 0 (s.storePixel (pixelIndex s x y) ⟨v0, v1, v2⟩)
    else raiseErr .errBadValue 0 s

/-- INFO, 41_image_buffer R126. -/
def execInfo (s : State) : Host.Outcome State Fault Refusal :=
  respond .ok (infoData s) s

end Sys2Proof.Machine
end

