-- ==== Sys2Proof/Machine/PixelModel.lean ====
section
/-! DEFINITION. The channel access commands GETCH and SETCH (40_pixel_model). -/

namespace Sys2Proof.Machine

/-- GETCH, 40_pixel_model R107. -/
def execGetch (x y : Half) (ch : BitVec 4) (s : State) : Host.Outcome State Fault Refusal :=
  withCoords s x y <|
    match channel? s.enc ch with
    | none => raiseErr .errInvalidChannel 0 s
    | some c => withPixel s x y fun p => respond .ok (zext56 (p.chan c).toNat) s

/-- SETCH, 40_pixel_model R108. -/
def execSetch (x y : Half) (ch : BitVec 4) (v : Half) (s : State) :
    Host.Outcome State Fault Refusal :=
  withCoords s x y <|
    match channel? s.enc ch with
    | none => raiseErr .errInvalidChannel 0 s
    | some c =>
      if chanOK s.enc v then
        withPixel s x y fun p =>
          respond .ok 0 (s.storePixel (pixelIndex s x y) (p.withChan c v))
      else raiseErr .errBadValue 0 s

end Sys2Proof.Machine
end

