-- ==== Sys2Proof/Machine/Stream.lean ====
section
/-! DEFINITION. The byte stream of a serialization (42_serializer R152 to R166), as a function of the
buffer and the mode alone (R168). -/

namespace Sys2Proof.Machine

/-- The two serialization modes (00_scope R3, 30_encoding R74). -/
inductive Mode where
  | text | binary
  deriving DecidableEq, Repr

/-! ## Characters, 30_encoding R86 -/

/-- `P`. -/
def chP : Byte := 0x50
/-- Space. -/
def chSpace : Byte := 0x20
/-- Newline. -/
def chNewline : Byte := 0x0A
/-- The digit `d`, 0 to 9. -/
def chDigit (d : Nat) : Byte := BitVec.ofNat 8 (0x30 + d)

/-! ## Decimal rendering, 42_serializer R153 -/

/-- The loop of `dec`: digits of `v` put before `acc`, least significant first, for at most `fuel`
rounds. -/
def decLoop : Nat → Nat → List Byte → List Byte
  | 0, _, acc => acc
  | fuel + 1, v, acc => if v = 0 then acc else decLoop fuel (v / 10) (chDigit (v % 10) :: acc)

/-- `dec(v)`: the decimal digits of `v`. A positive `v` has at most `v` digits, so the fuel is enough. -/
def dec (v : Nat) : List Byte := if v = 0 then [chDigit 0] else decLoop v v []

/-! ## The header, 42_serializer R154, R155 -/

/-- The format identifier written in the header (30_encoding R85). -/
def formatId (m : Mode) (e : Enc) : Nat :=
  match m with
  | .text => e.textFormatId
  | .binary => e.binaryFormatId

/-- MaxLine, absent for bi-level (42_serializer R155). -/
def maxLine (e : Enc) : List Byte :=
  match e.maxValue with
  | none => []
  | some v => dec v ++ [chNewline]

/-- Header(m) of a `w` by `h` buffer of encoding `e` (42_serializer R154). -/
def header (m : Mode) (e : Enc) (w h : Nat) : List Byte :=
  [chP] ++ dec (formatId m e) ++ [chSpace] ++ dec w ++ [chSpace] ++ dec h ++ [chNewline] ++ maxLine e

/-! ## Pixels in row-major order -/

/-- The pixel at (x, y) of a buffer `w` pixels wide. The serializer starts only on a store that has
every entry, so the default is never used (log entry 18). -/
def pixelAt (pix : Memory) (w x y : Nat) : Pixel := (pix.read (idx w x y)).getD Pixel.zero

/-- `f` of every pixel, row 0 first, each row from x = 0 upward (42_serializer R157, R160). -/
def rowMajor (pix : Memory) (w h : Nat) (f : Pixel → List Byte) : List Byte :=
  (List.range h).flatMap fun y => (List.range w).flatMap fun x => f (pixelAt pix w x y)

/-! ## Text body, 42_serializer R157 to R159 -/

/-- The text of one pixel: every channel in encoding order, each followed by one space. -/
def pixelText (e : Enc) (p : Pixel) : List Byte :=
  e.channels.flatMap fun c => dec (p.chan c).toNat ++ [chSpace]

/-- TextBody. -/
def textBody (e : Enc) (pix : Memory) (w h : Nat) : List Byte := rowMajor pix w h (pixelText e)

/-! ## Sample body, 42_serializer R160 to R162 -/

/-- Sample(v): one byte, or two with the least significant first (42_serializer R161). -/
def sample (e : Enc) (v : Half) : List Byte :=
  if e.chanBits = 16 then [v.extractLsb' 0 8, v.extractLsb' 8 8] else [v.extractLsb' 0 8]

/-- The samples of one pixel, channels in encoding order. -/
def pixelSamples (e : Enc) (p : Pixel) : List Byte :=
  e.channels.flatMap fun c => sample e (p.chan c)

/-- SampleBody. -/
def sampleBody (e : Enc) (pix : Memory) (w h : Nat) : List Byte := rowMajor pix w h (pixelSamples e)

/-! ## Bi-level binary body, 42_serializer R163 to R166 -/

/-- `ceil_div(a, b)` (00_scope R11). -/
def ceilDiv (a b : Nat) : Nat := (a + b - 1) / b

/-- The byte of group `g` of row `y`, before inversion: pixel `i` of the group sets bit `7 - i` if it
is true (42_serializer R164). -/
def groupByte (pix : Memory) (w y g : Nat) : Byte :=
  (List.range (min 8 (w - 8 * g))).foldl
    (fun byte i => if (pixelAt pix w (8 * g + i) y).c0 = 1 then byte ||| (1#8 <<< (7 - i)) else byte)
    0#8

/-- Invert(b) (42_serializer R165). -/
def invert (b : Byte) : Byte := 0xFF#8 - b

/-- BilevelBody. -/
def bilevelBody (pix : Memory) (w h : Nat) : List Byte :=
  (List.range h).flatMap fun y => (List.range (ceilDiv w 8)).map fun g => invert (groupByte pix w y g)

/-! ## The stream, 42_serializer R152 -/

/-- Body(m). -/
def body (m : Mode) (e : Enc) (pix : Memory) (w h : Nat) : List Byte :=
  match m with
  | .text => textBody e pix w h
  | .binary => if e = .bilevel then bilevelBody pix w h else sampleBody e pix w h

/-- Stream(m) of a buffer. -/
def stream (m : Mode) (e : Enc) (pix : Memory) (w h : Nat) : List Byte :=
  header m e w h ++ body m e pix w h

/-- Stream(m) of the state's buffer. -/
def streamOf (m : Mode) (s : State) : List Byte :=
  stream m s.enc s.pix s.width.toNat s.height.toNat

end Sys2Proof.Machine
end

