-- ==== Sys2Proof/Machine/Serializer.lean ====
section
/-! DEFINITION. The serializer commands SERT and SERB (42_serializer). -/

namespace Sys2Proof.Machine

/-- A serialization in mode `m`: with a buffer, the stream on the state at acceptance goes into OUTQ
and the response is held (42_serializer R150, R151, R172). A store without every entry faults (log
entry 3). -/
def serialize (m : Mode) (s : State) : Host.Outcome State Fault Refusal :=
  withBuffer s <|
    if storeComplete s then .next (s.beginStream (streamOf m s)) else .fault .pixelMissing

/-- SERT, 42_serializer R150. -/
def execSert (s : State) : Host.Outcome State Fault Refusal := serialize .text s

/-- SERB, 42_serializer R151. -/
def execSerb (s : State) : Host.Outcome State Fault Refusal := serialize .binary s

end Sys2Proof.Machine
end

