-- ==== Sys2Proof/Machine/Dispatch.lean ====
section
/-! DEFINITION. Performing a command by its rule: one meaning per constructor. -/

namespace Sys2Proof.Machine

def exec (i : Instr) (s : State) : Host.Outcome State Fault Refusal :=
  match i with
  | .create enc w h v0 v1 v2 => Sys2Proof.Machine.execCreate enc w h v0 v1 v2 s
  | .get x y => Sys2Proof.Machine.execGet x y s
  | .set x y v0 v1 v2 => Sys2Proof.Machine.execSet x y v0 v1 v2 s
  | .getch x y ch => Sys2Proof.Machine.execGetch x y ch s
  | .setch x y ch v => Sys2Proof.Machine.execSetch x y ch v s
  | .info => Sys2Proof.Machine.execInfo s
  | .sert => Sys2Proof.Machine.execSert s
  | .serb => Sys2Proof.Machine.execSerb s

end Sys2Proof.Machine
end

