-- ==== Sys2Proof/Machine/Handshake.lean ====
section
/-! DEFINITION. The ports (10_state R33 to R37) and the transitions of the block (10_state R38). -/

namespace Sys2Proof.Machine

/-! ## Inputs -/

/-- The input levels of this step; an exhausted schedule keeps the environment's duties (log entry 5). -/
def State.tick (s : State) : Tick := s.ticks.headD Tick.go

/-- The word the host presents on `cmd_data`, none while `cmd_valid` is 0. -/
def State.presented (s : State) : Option CmdWord :=
  if s.tick.cmdValid then s.cmdq.head? else none

/-! ## Outputs, 10_state R33

`cmd_ready`, `rsp_valid`, `out_valid` and `out_last` are levels with a value in every state. The payload of a
channel, `rsp_data` or `out_data`, has none while its `valid` is 0 (log entry 15). -/

/-- `cmd_ready`: 0 whenever BUSY = 1 or `rst` = 1 (10_state R33). -/
def State.cmdReady (s : State) : Bool := !s.busy && !s.tick.rst

/-- What the block presents on `rsp` (10_state R36, 70_reset R230). -/
def State.rspPort (s : State) : Option RspWord := if s.tick.rst then none else s.rspq

/-- What the block presents on `out`: the head of OUTQ, last when it is alone (10_state R37,
70_reset R230). -/
def State.outPort (s : State) : Option OutTransfer :=
  if s.tick.rst then none
  else match s.outq with
    | [] => none
    | b :: rest => some ⟨b, rest.isEmpty⟩

/-- `rsp_valid` (10_state R33, R36). -/
def State.rspValid (s : State) : Bool := s.rspPort.isSome

/-- `out_valid` (10_state R33, R37). -/
def State.outValid (s : State) : Bool := s.outPort.isSome

/-- `out_last`: 1 on the final byte of a serialization, else 0, so 0 while `rst` is 1 and while nothing is
presented (10_state R33, R37, R39, 70_reset R230). -/
def State.outLast (s : State) : Bool :=
  match s.outPort with
  | none => false
  | some t => t.last

/-! ## Which transfer happens: the sender's valid and the receiver's ready both 1 (10_state R34) -/

/-- The word transferred on `cmd` in this step: Accept is enabled. -/
def State.cmdTransfer (s : State) : Option CmdWord := if s.cmdReady then s.presented else none

/-- The byte transferred on `out` in this step: SendByte is enabled. -/
def State.outTransfer (s : State) : Option OutTransfer :=
  if s.tick.outReady then s.outPort else none

/-- The response transferred on `rsp` in this step: SendRsp is enabled. -/
def State.rspTransfer (s : State) : Option RspWord :=
  if s.tick.rspReady then s.rspPort else none

/-! ## Updates of the state -/

/-- The step's input levels are used up. -/
def State.advance (s : State) : State := { s with ticks := s.ticks.tail }

/-- A word has been taken: the host goes on to its next one and BUSY is 1 (10_state R35). -/
def State.takeCommand (s : State) : State := { s with busy := true, cmdq := s.cmdq.tail }

/-- SendByte's effect (10_state R38): OUTQ loses its head, and after the last byte the held response
goes into RSPQ. -/
def State.sendByte (s : State) (t : OutTransfer) : State :=
  { s with
    outq := s.outq.tail
    rspq := if t.last then s.held else s.rspq
    held := if t.last then none else s.held
    sinkGot := s.sinkGot ++ [t] }

/-- SendRsp's effect (10_state R38). -/
def State.sendRsp (s : State) (r : RspWord) : State :=
  { s with busy := false, rspq := none, hostGot := s.hostGot ++ [r] }

/-- Reset's effect (10_state R38, R39). The parameter and the environment's side of the ports are no
state of the block and stay; what has been transferred stays transferred (70_reset R232). -/
def State.resetBlock (s : State) : State :=
  { State.reset with
    cfg := s.cfg
    cmdq := s.cmdq
    ticks := s.ticks
    hostGot := s.hostGot
    sinkGot := s.sinkGot }

/-! ## The transitions -/

/-- Performing a word by its rule: an illegal one completes with ERR_ILLEGAL (60_exceptions R205). -/
def perform (w : CmdWord) (s : State) : Host.Outcome State Fault Refusal :=
  match decode w with
  | .ok i => exec i s
  | .error _ => raiseErr .errIllegal 0 s

/-- One step: the enabled transition of 10_state R38, or a wait. In the states that no run reaches and
in which several are enabled, the first of Reset, Accept, SendByte, SendRsp is taken (log entry 7). -/
def transition (s : State) : Host.Outcome State Fault Refusal :=
  if s.tick.rst then .next s.advance.resetBlock
  else match s.cmdTransfer with
    | some w => perform w s.advance.takeCommand
    | none =>
      match s.outTransfer with
      | some t => .next (s.advance.sendByte t)
      | none =>
        match s.rspTransfer with
        | some r => .next (s.advance.sendRsp r)
        | none => .next s.advance

/-- `s` with the host presenting `c` in its very next step and the block free to accept it. -/
def State.present (s : State) (c : CmdWord) : State :=
  { s with busy := false, cmdq := c :: s.cmdq, ticks := Tick.go :: s.ticks }

/-- `State.present` of a word numbered as spec/opcode_table.json numbers it; `s` itself where that is
no 96-bit word. -/
def State.presentTableWord (s : State) (nbits w : Nat) : State :=
  match tableWord nbits w with
  | none => s
  | some c => s.present c

end Sys2Proof.Machine
end

