-- ==== Sys2Proof/Machine/Step.lean ====
section
/-! DEFINITION. The step of the machine, and how the host places one command. -/

namespace Sys2Proof.Machine

/-- One step of the block and its environment (10_state R38). -/
def step (s : State) : Host.Outcome State Fault Refusal := transition s

/-- `s` with the command word `w` presented next on `cmd`: the block fetches nothing (20_memory R62),
so this stands for the host sending it (log entries 6 and 20). -/
def State.withFetchWord (s : State) (nbits w : Nat) : State := s.presentTableWord nbits w

end Sys2Proof.Machine
end

