-- ==== Sys2Proof/Safety.lean ====
section
/-! DEFINITION. What the claims speak of: the invariants of 10_state R27, R28 and R38, the responses and
the errors as numbers of the spec, and a command performed as one atomic event. -/

namespace Sys2Proof.Machine

/-! ## Invariants -/

/-- The entry invariant, 10_state R27. -/
abbrev PixelLegal (e : Enc) (p : Pixel) : Prop :=
  ∀ c : Fin 3,
    (c.val < e.componentCount → (p.chan c).toNat ≤ e.chanMax) ∧
    (e.componentCount ≤ c.val → p.chan c = 0)

/-- The buffer invariant, 10_state R28, with the canonical form of the store (log entry 1), the range of
PIX_CAPACITY (92_eei D14) and what the elements are while LIVE = 0 (10_state R39). -/
structure BufferInv (s : State) : Prop where
  capacity : 1 ≤ s.cfg.pixCapacity
  canonical : s.pix.wf = true
  dead : s.live = false → s.enc = .bilevel ∧ s.width = 0 ∧ s.height = 0 ∧ s.pix = []
  dims : s.live = true →
    0 < s.width.toNat ∧ 0 < s.height.toNat ∧ s.width.toNat * s.height.toNat ≤ s.cfg.pixCapacity
  size : s.live = true → s.pix.size = s.width.toNat * s.height.toNat
  entries : ∀ r ∈ s.pix, PixelLegal s.enc r.pixel

/-- No command is in the block. -/
abbrev Idle (s : State) : Prop :=
  s.busy = false ∧ s.outq = [] ∧ s.rspq = none ∧ s.held = none

/-- A command has been performed and its response waits (10_state R36). -/
abbrev Responding (s : State) : Prop :=
  s.busy = true ∧ s.outq = [] ∧ s.rspq.isSome = true ∧ s.held = none

/-- A serialization is being sent and its response is held (10_state R36). -/
abbrev Streaming (s : State) : Prop :=
  s.busy = true ∧ s.outq ≠ [] ∧ s.rspq = none ∧ s.held.isSome = true

/-- BUSY, OUTQ, RSPQ and the held response agree: the block is in one of three phases. -/
abbrev PhaseInv (s : State) : Prop := Idle s ∨ Responding s ∨ Streaming s

/-- The invariant that every step keeps. -/
structure Inv (s : State) : Prop where
  buffer : BufferInv s
  phase : PhaseInv s

/-! ## Runs -/

/-- `n` steps of the machine (70_reset R247). -/
abbrev run (n : Nat) (s : State) : Host.Outcome State Fault Refusal :=
  Host.Core.run Sys2Proof.core n s

/-- The block has just been reset, in an environment that will present `ws` and drive `ts`, around a
block with the parameter `c`. -/
def State.start (c : Config) (ws : List CmdWord) (ts : List Tick) : State :=
  { State.reset with cfg := c, cmdq := ws, ticks := ts }

/-! ## Responses and errors as the spec numbers them -/

/-- The response word as one number, STATUS + DATA * 2^8 (30_encoding R80). -/
def rspNumber (st d : Nat) : RspWord := BitVec.ofNat 64 (st + d * 2 ^ 8)

/-- The STATUS field of a response word, bits 3:0 (30_encoding R80). -/
def rspStatus (r : RspWord) : Nat := r.toNat % 16

/-- The command answers with this response and nothing else changes. -/
abbrev RespondsOnly (i : Instr) (s : State) (st d : Nat) : Prop :=
  exec i s = .next { s with rspq := some (rspNumber st d) }

/-- Every word of opcode `op` that is not `legal` completes with ERR_ILLEGAL and nothing else changes
(30_encoding R77, 60_exceptions R205). -/
abbrev MalformedAnswersIllegal (op : BitVec 4) (legal : CmdWord → Bool) (s : State) : Prop :=
  ∀ w : CmdWord, w.extractLsb' 0 4 = op → legal w = false →
    perform w s = .next { s with rspq := some (rspNumber 5 0) }

/-- The legal words of CREATE: the pattern of its checked bits, and ENC at most 4 (30_encoding R76,
R77). -/
def legalCreate (w : CmdWord) : Bool :=
  w &&& 0xFF00_0000_0000_0000_0000_008F == 0x1 && (w.toNat / 2 ^ 4 % 8 ≤ 4 : Bool)
/-- The legal words of GET (30_encoding R76). -/
def legalGet (w : CmdWord) : Bool := w &&& 0xFFFF_FFFF_FFFF_FF00_0000_00FF == 0x2
/-- The legal words of SET (30_encoding R76). -/
def legalSet (w : CmdWord) : Bool := w &&& 0xFF00_0000_0000_0000_0000_00FF == 0x3
/-- The legal words of GETCH (30_encoding R76). -/
def legalGetch (w : CmdWord) : Bool := w &&& 0xFFFF_FFFF_FFFF_FF00_0000_000F == 0x4
/-- The legal words of SETCH (30_encoding R76). -/
def legalSetch (w : CmdWord) : Bool := w &&& 0xFFFF_FFFF_FF00_0000_0000_000F == 0x5
/-- The legal word of INFO (30_encoding R76). -/
def legalInfo (w : CmdWord) : Bool := w &&& 0xFFFF_FFFF_FFFF_FFFF_FFFF_FFFF == 0x6
/-- The legal words of SERIALIZE, SERT and SERB (30_encoding R76). -/
def legalSerialize (w : CmdWord) : Bool :=
  w &&& 0xFFFF_FFFF_FFFF_FFFF_FFFF_FFFF == 0x7 || w &&& 0xFFFF_FFFF_FFFF_FFFF_FFFF_FFFF == 0x17

/-- A legal word is a legal word of some opcode (30_encoding R76, R77). -/
def legalWord (w : CmdWord) : Bool :=
  legalCreate w || legalGet w || legalSet w || legalGetch w || legalSetch w || legalInfo w ||
    legalSerialize w

/-- The errors of the priority list of 60_exceptions R210, in its order, each with whether it applies to
the word `w` in state `s`. The conditions are those of R201 to R207 on the word's fields as numbers. -/
def errorList (s : State) (w : CmdWord) : List (Nat × Bool) :=
  let n := w.toNat
  let op := n % 2 ^ 4
  let sel := n / 2 ^ 4 % 2 ^ 4
  let a := n / 2 ^ 8 % 2 ^ 16
  let b := n / 2 ^ 24 % 2 ^ 16
  let p : Pixel := ⟨w.extractLsb' 40 16, w.extractLsb' 56 16, w.extractLsb' 72 16⟩
  let access := op == 2 || op == 3 || op == 4 || op == 5
  [ (5, !legalWord w),
    (4, (access || op == 7) && !s.live),
    (1, op == 1 && (a == 0 || b == 0)),
    (2, access && (decide (s.width.toNat ≤ a) || decide (s.height.toNat ≤ b))),
    (3, (op == 4 || op == 5) && decide (s.enc.componentCount ≤ sel)),
    (6, (op == 1 && !([Enc.bilevel, .gray8, .gray16, .rgb8, .rgb16].any
        fun e => e.code.toNat == sel && decide (PixelLegal e p)))
        || (op == 3 && !decide (PixelLegal s.enc p))
        || (op == 5 && decide (s.enc.chanMax < p.c0.toNat))),
    (7, op == 1 && decide (s.cfg.pixCapacity < a * b)) ]

/-- The STATUS a word gets: the first error of the list that applies, else 0 (60_exceptions R210). -/
def firstError (s : State) (w : CmdWord) : Nat :=
  match (errorList s w).find? (fun e => e.2) with
  | some e => e.1
  | none => 0

/-- The DATA of the error a word gets: both halves of a dimension or coordinate check, else 0
(60_exceptions R200 to R202). -/
def errorDetail (s : State) (w : CmdWord) : Nat :=
  let a := w.toNat / 2 ^ 8 % 2 ^ 16
  let b := w.toNat / 2 ^ 24 % 2 ^ 16
  if firstError s w = 1 then (if a = 0 then 1 else 0) + (if b = 0 then 2 else 0)
  else if firstError s w = 2 then
    (if s.width.toNat ≤ a then 1 else 0) + (if s.height.toNat ≤ b then 2 else 0)
  else 0

/-- A word that may write the pixel at (x, y): a CREATE, or a SET or SETCH that names it (41_image_buffer
R128). -/
def mayWrite (w : CmdWord) (x y : Half) : Bool :=
  w.toNat % 16 == 1 ||
    ((w.toNat % 16 == 3 || w.toNat % 16 == 5) &&
      w.extractLsb' 8 16 == x && w.extractLsb' 24 16 == y)

/-! ## A command as one atomic event -/

/-- The command that serializes in a mode (42_serializer R150, R151). -/
def serializeCommand : Mode → Instr
  | .text => .sert
  | .binary => .serb

/-- The transfers that send these bytes, the last one marked (42_serializer R170). -/
def transfersOf : List Byte → List OutTransfer
  | [] => []
  | b :: rest => ⟨b, rest.isEmpty⟩ :: transfersOf rest

/-- A word performed whole: its effect, the bytes it sends taken by the sink and its response taken by
the host, with the block quiescent again (20_memory R60, R61). A word whose meaning stops leaves the
state as it is. -/
def atomically (s : State) (w : CmdWord) : State :=
  match perform w s with
  | .next t =>
    { t with
      busy := false
      outq := []
      rspq := none
      held := none
      sinkGot := t.sinkGot ++ transfersOf t.outq
      hostGot := t.hostGot ++ ((t.rspq.or t.held).toList) }
  | .fault _ => s
  | .refused _ => s

/-- The block is quiescent (70_reset R247). -/
abbrev Quiescent (s : State) : Prop := s.busy = false ∧ s.outq = [] ∧ s.rspq = none

end Sys2Proof.Machine
end

