-- ==== Sys2Proof/Certificates/Slice0/Obligations.lean ====
section
/-! DEFINITION. The statements for the provers. Each docstring names the rules of spec/ it formalises. -/

open Sys2Proof Sys2Proof.Machine

/-! ## Reset -/

/-- 10_state R39: LIVE, ENC, WIDTH, HEIGHT and BUSY are 0 and OUTQ and RSPQ empty after reset, no command
reaches an entry of PIX, while `rst` is 1 `cmd_ready`, `rsp_valid`, `out_valid` and `out_last` are 0, and the
block waits for a command. -/
def Obligations.ResetLeavesTheStatedValues : Prop :=
  (State.reset.live = false ∧ State.reset.enc.code = 0 ∧ State.reset.width = 0 ∧
    State.reset.height = 0 ∧ State.reset.busy = false ∧ State.reset.outq = [] ∧
    State.reset.rspq = none) ∧
  (∀ (x y v0 v1 v2 : Half) (ch : BitVec 4),
    RespondsOnly (.get x y) State.reset 4 0 ∧ RespondsOnly (.set x y v0 v1 v2) State.reset 4 0 ∧
    RespondsOnly (.getch x y ch) State.reset 4 0 ∧ RespondsOnly (.setch x y ch v0) State.reset 4 0 ∧
    RespondsOnly .sert State.reset 4 0 ∧ RespondsOnly .serb State.reset 4 0) ∧
  (∀ s : State, s.tick.rst = true →
    s.cmdReady = false ∧ s.rspValid = false ∧ s.outValid = false ∧ s.outLast = false) ∧
  step State.reset = .next State.reset

/-- 70_reset R230, R233: in any state, while `rst` is 1 no port is ready or valid; the step transfers
nothing (no word is taken, and a pending response or byte is lost), leaves every state element at its reset
value, and a block that is then presented nothing waits. -/
def Obligations.ResetStepWipesTheBlockAndTransfersNothing : Prop :=
  ∀ s : State, s.tick.rst = true →
    s.cmdReady = false ∧ s.rspValid = false ∧ s.outValid = false ∧ s.outLast = false ∧
    s.rspPort = none ∧ s.outPort = none ∧
    ∃ t, step s = .next t ∧
      t.live = false ∧ t.enc.code = 0 ∧ t.width = 0 ∧ t.height = 0 ∧ t.busy = false ∧
      t.outq = [] ∧ t.rspq = none ∧
      t.cmdq = s.cmdq ∧ t.hostGot = s.hostGot ∧ t.sinkGot = s.sinkGot ∧
      (t.tick.rst = false → t.presented = none → step t = .next { t with ticks := t.ticks.tail })

/-- The model's choice of log entry 2 (PIX empty after reset, which 70_reset R231 allows) meets the
invariant. -/
def Obligations.ResetStateMeetsTheInvariant : Prop :=
  Inv State.reset ∧ Quiescent State.reset

/-- 70_reset R231, 93 S1: whatever the pixel store holds after reset, no sequence of commands, resets and
port levels lets the host or the sink observe it. -/
def Obligations.StoreContentsAfterResetAreUnobservable : Prop :=
  ∀ (c : Config) (m : Memory) (ws : List CmdWord) (ts : List Tick) (n : Nat), 1 ≤ c.pixCapacity →
    ∃ t u, run n (State.start c ws ts) = .next t ∧
      run n { State.start c ws ts with pix := m } = .next u ∧
      u.hostGot = t.hostGot ∧ u.sinkGot = t.sinkGot ∧ u.cmdReady = t.cmdReady ∧
      u.rspPort = t.rspPort ∧ u.outPort = t.outPort

/-! ## Invariants and runs -/

/-- 10_state R27, R28: every step keeps the buffer invariant (and, the model's own, the canonical form of
the store and the agreement of BUSY, OUTQ, RSPQ and the held response). -/
def Obligations.EveryStepKeepsTheInvariant : Prop :=
  ∀ s t : State, Inv s → step s = .next t → Inv t

/-- From a state that meets the invariant the machine never stops: no fault, no refusal (10_state R38). -/
def Obligations.EveryStepFromTheInvariantAnswersNext : Prop :=
  ∀ s : State, Inv s → ∃ t, step s = .next t ∧ Inv t

/-- 10_state R28, R27, over every run: any legal parameter, any words, any port levels and resets. -/
def Obligations.EveryRunFromResetMeetsTheBufferInvariant : Prop :=
  ∀ (c : Config) (ws : List CmdWord) (ts : List Tick) (n : Nat), 1 ≤ c.pixCapacity →
    ∃ t, run n (State.start c ws ts) = .next t ∧
      (t.live = true →
        0 < t.width.toNat ∧ 0 < t.height.toNat ∧ t.enc.code.toNat ≤ 4 ∧
        t.width.toNat * t.height.toNat ≤ c.pixCapacity ∧
        t.pix.toList.length = t.width.toNat * t.height.toNat ∧
        ∀ p ∈ t.pix.toList, PixelLegal t.enc p)

/-- 10_state R38, the table of transitions: each is taken exactly when enabled, with its effect; nothing
else changes the state; at most one of Accept, SendByte and SendRsp is enabled. That PIX is empty after
reset and where the held response stands are the model's choices (log entries 2 and 9). -/
def Obligations.TransitionsAreTheStatedOnes : Prop :=
  ∀ s : State, PhaseInv s →
    (∀ w, s.tick.rst = false → s.busy = false → s.presented = some w →
      step s = perform w { s with busy := true, cmdq := s.cmdq.tail, ticks := s.ticks.tail }) ∧
    (∀ b rest, s.tick.rst = false → s.outq = b :: rest → s.tick.outReady = true →
      step s = .next { s with
        outq := rest
        rspq := if rest = [] then s.held else none
        held := if rest = [] then none else s.held
        sinkGot := s.sinkGot ++ [⟨b, decide (rest = [])⟩]
        ticks := s.ticks.tail }) ∧
    (∀ r, s.tick.rst = false → s.rspq = some r → s.tick.rspReady = true →
      step s = .next { s with
        rspq := none
        busy := false
        hostGot := s.hostGot ++ [r]
        ticks := s.ticks.tail }) ∧
    (s.tick.rst = true →
      step s = .next { State.start s.cfg s.cmdq s.ticks.tail with
        hostGot := s.hostGot
        sinkGot := s.sinkGot }) ∧
    (s.tick.rst = false → (s.busy = true ∨ s.presented = none) →
      (s.outq = [] ∨ s.tick.outReady = false) → (s.rspq = none ∨ s.tick.rspReady = false) →
      step s = .next { s with ticks := s.ticks.tail }) ∧
    ¬ (s.busy = false ∧ s.outq ≠ []) ∧
    ¬ (s.busy = false ∧ s.rspq ≠ none) ∧
    ¬ (s.outq ≠ [] ∧ s.rspq ≠ none)

/-- 10_state R35: when the host presents a word that decodes to `i`, the step is `exec i` on the state in
which BUSY is 1 and the word and the step's port levels are used up. -/
def Obligations.StepRunsTheDecodedCommand : Prop :=
  ∀ (s : State) (w : CmdWord) (i : Instr),
    s.tick.rst = false → s.busy = false → s.presented = some w → decode w = .ok i →
    step s = exec i { s with busy := true, cmdq := s.cmdq.tail, ticks := s.ticks.tail }

/-- The model's own (log entries 6 and 20): a command word placed by `withFetchWord` is the one the very next
step performs, and nothing else of the state has changed. -/
def Obligations.PlacedWordIsRunByTheNextStep : Prop :=
  ∀ (s : State) (w : CmdWord) (i : Instr), decodeTableWord 96 w.toNat = some i →
    decode w = .ok i ∧ step (s.withFetchWord 96 w.toNat) = exec i { s with busy := true }

/-- 10_state R30, R33: while BUSY = 1 or `rst` = 1 no word is taken, whatever the host presents. -/
def Obligations.NoWordIsTakenWhileBusyOrInReset : Prop :=
  ∀ s t : State, (s.busy = true ∨ s.tick.rst = true) → step s = .next t →
    s.cmdReady = false ∧ t.cmdq = s.cmdq

/-- 10_state R37, 42_serializer R170: `out` shows the head of OUTQ, with `out_last` exactly when OUTQ holds
one byte, and nothing, with `out_last` 0, while OUTQ is empty; the byte transferred carries that `out_last`. -/
def Obligations.OutPortShowsTheHeadOfTheQueue : Prop :=
  ∀ s : State, s.tick.rst = false →
    (s.outValid = true ↔ s.outq ≠ []) ∧ (s.outLast = true ↔ s.outq.length = 1) ∧
    (s.outq = [] → s.outPort = none) ∧
    (∀ b rest, s.outq = b :: rest →
      s.outPort = some ⟨b, decide (s.outq.length = 1)⟩ ∧
      (PhaseInv s → s.tick.outReady = true →
        ∃ t, step s = .next t ∧ t.outq = rest ∧ t.sinkGot = s.sinkGot ++ [⟨b, s.outLast⟩]))

/-- 70_reset R241, R242: while the host accepts no response, or the sink no byte, the block takes no
command and changes nothing, for any number of steps. -/
def Obligations.BackPressureStopsTheBlock : Prop :=
  ∀ (n : Nat) (s : State), PhaseInv s → s.busy = true →
    (∀ k, k < n → ∃ tk, s.ticks[k]? = some tk ∧ tk.rst = false ∧
      (s.outq = [] → tk.rspReady = false) ∧ (s.outq ≠ [] → tk.outReady = false)) →
    run n s = .next { s with ticks := s.ticks.drop n }

/-- 20_memory R60, 30_encoding R80: in a run without reset, every word taken gets exactly one response. -/
def Obligations.EveryCommandGetsOneResponse : Prop :=
  ∀ (n : Nat) (s t : State), Inv s → (∀ tk ∈ s.ticks, tk.rst = false) → run n s = .next t →
    s.cmdq.length + (if s.busy then 1 else 0) + s.hostGot.length =
      t.cmdq.length + (if t.busy then 1 else 0) + t.hostGot.length ∧
    s.hostGot <+: t.hostGot ∧ t.cmdq <:+ s.cmdq

/-- 20_memory R60: with host and sink always ready, the block takes the words in order, each performed as
one atomic event that sees every effect of the earlier ones, and ends quiescent. That an empty schedule means a
ready environment is the model's choice of log entry 5, that the block takes a word in the first step in which
it may that of log entry 24. -/
def Obligations.ReadyEnvironmentSeesAtomicCommandsInOrder : Prop :=
  ∀ s : State, Inv s → Quiescent s → s.ticks = [] →
    ∃ n, run n s = .next (s.cmdq.foldl atomically { s with cmdq := [] })

/-- 30_encoding R81, R80: every response word the host ever receives has a STATUS of 0 to 7 and RSVR 0. -/
def Obligations.EveryResponseHasALegalStatus : Prop :=
  ∀ (c : Config) (ws : List CmdWord) (ts : List Tick) (n : Nat) (t : State),
    run n (State.start c ws ts) = .next t →
    ∀ r ∈ t.hostGot, rspStatus r ≤ 7 ∧ r.extractLsb' 4 4 = 0

/-! ## Encodings -/

/-- 30_encoding R97: the words of the spec's table decode to the commands they stand for. -/
def Obligations.TableOfEncodedExamplesDecodes : Prop :=
  decode 0x0000_0000_0000_0000_0200_0311 = .ok (.create 1 3 2 0 0 0) ∧
  decode 0x0000_0000_0000_0000_0100_0A01 = .ok (.create 0 10 1 0 0 0) ∧
  decode 0x00FF_FF01_0000_0100_0100_0141 = .ok (.create 4 1 1 1 256 65535) ∧
  decode 0x0000_FF00_FF00_FFFF_FFFF_FF31 = .ok (.create 3 65535 65535 255 255 255) ∧
  decode 0x0000_0000_0000_0000_0100_0202 = .ok (.get 2 1) ∧
  decode 0x0000_0000_0000_0100_0000_0003 = .ok (.set 0 0 1 0 0) ∧
  decode 0x0000_1000_FF00_0000_0000_0103 = .ok (.set 1 0 0 255 16) ∧
  decode 0x0000_0000_0000_0000_0000_0024 = .ok (.getch 0 0 2) ∧
  decode 0x0000_0000_0001_0000_0000_0015 = .ok (.setch 0 0 1 256) ∧
  decode 0x0000_0000_0000_0000_0000_0006 = .ok .info ∧
  decode 0x0000_0000_0000_0000_0000_0007 = .ok .sert ∧
  decode 0x0000_0000_0000_0000_0000_0017 = .ok .serb

/-- 30_encoding R77, 60_exceptions R205: a word is illegal exactly when its checked bits (R76) differ from
the pattern of every opcode or it is a CREATE with ENC 5 to 7, whatever the state; an illegal word completes
with ERR_ILLEGAL and changes nothing. -/
def Obligations.DecodeAcceptsExactlyTheLegalWords : Prop :=
  ∀ w : CmdWord, ((∃ i, decode w = .ok i) ↔ legalWord w = true) ∧
    (legalWord w = false → ∀ s : State,
      perform w s = .next { s with rspq := some (rspNumber 5 0) })

/-- Every well-formed command comes back from its word, with every operand at every value. -/
def Obligations.DecodeOfEncodeIsTheCommand : Prop :=
  ∀ i : Instr, i.wf = true → decode (encode i) = .ok i

/-- Every word that decodes is the one word of its command: no bit of it is dropped (30_encoding R78). -/
def Obligations.EncodeOfDecodeIsTheWord : Prop :=
  ∀ (w : CmdWord) (i : Instr), decode w = .ok i → i.wf = true ∧ encode i = w

/-- 30_encoding R70, the formula of the command word, for each command. -/
def Obligations.EncodedWordsAreTheStatedNumbers : Prop :=
  (∀ (e : BitVec 3) (w h v0 v1 v2 : Half),
    (encode (.create e w h v0 v1 v2)).toNat =
      1 + e.toNat * 2 ^ 4 + w.toNat * 2 ^ 8 + h.toNat * 2 ^ 24 + v0.toNat * 2 ^ 40 +
        v1.toNat * 2 ^ 56 + v2.toNat * 2 ^ 72) ∧
  (∀ x y : Half, (encode (.get x y)).toNat = 2 + x.toNat * 2 ^ 8 + y.toNat * 2 ^ 24) ∧
  (∀ x y v0 v1 v2 : Half,
    (encode (.set x y v0 v1 v2)).toNat =
      3 + x.toNat * 2 ^ 8 + y.toNat * 2 ^ 24 + v0.toNat * 2 ^ 40 + v1.toNat * 2 ^ 56 +
        v2.toNat * 2 ^ 72) ∧
  (∀ (x y : Half) (ch : BitVec 4),
    (encode (.getch x y ch)).toNat = 4 + ch.toNat * 2 ^ 4 + x.toNat * 2 ^ 8 + y.toNat * 2 ^ 24) ∧
  (∀ (x y : Half) (ch : BitVec 4) (v : Half),
    (encode (.setch x y ch v)).toNat =
      5 + ch.toNat * 2 ^ 4 + x.toNat * 2 ^ 8 + y.toNat * 2 ^ 24 + v.toNat * 2 ^ 40) ∧
  (encode .info).toNat = 6 ∧ (encode .sert).toNat = 7 ∧ (encode .serb).toNat = 7 + 1 * 2 ^ 4

/-- 30_encoding R80: the fields of a response word and the word as one number. -/
def Obligations.ResponseWordHasTheStatedFields : Prop :=
  ∀ (st : Status) (d : RspData),
    (responseWord st d).extractLsb' 0 4 = st.code ∧
    (responseWord st d).extractLsb' 4 4 = 0 ∧
    (responseWord st d).extractLsb' 8 56 = d ∧
    (responseWord st d).toNat = st.code.toNat + d.toNat * 2 ^ 8

/-! ## The commands -/

/-- 41_image_buffer R120, CREATE: its four outcomes, for every encoding and every operand. -/
def Obligations.CreateBuildsTheBufferOrRefuses : Prop :=
  ∀ (s : State) (e : Enc) (w h f0 f1 f2 : Half),
    ((w = 0 ∨ h = 0) →
      RespondsOnly (.create e.code w h f0 f1 f2) s 1
        ((if w = 0 then 1 else 0) + (if h = 0 then 2 else 0))) ∧
    (w ≠ 0 → h ≠ 0 → ¬ PixelLegal e ⟨f0, f1, f2⟩ →
      RespondsOnly (.create e.code w h f0 f1 f2) s 6 0) ∧
    (w ≠ 0 → h ≠ 0 → PixelLegal e ⟨f0, f1, f2⟩ → s.cfg.pixCapacity < w.toNat * h.toNat →
      RespondsOnly (.create e.code w h f0 f1 f2) s 7 0) ∧
    (w ≠ 0 → h ≠ 0 → PixelLegal e ⟨f0, f1, f2⟩ → w.toNat * h.toNat ≤ s.cfg.pixCapacity →
      ∃ m, exec (.create e.code w h f0 f1 f2) s =
          .next { s with
            live := true, enc := e, width := w, height := h, pix := m
            rspq := some (rspNumber 0 0) } ∧
        m.toList = List.replicate (w.toNat * h.toNat) ⟨f0, f1, f2⟩) ∧
    MalformedAnswersIllegal 1 legalCreate s

/-- The model's choice of log entry 13: the CREATE that no legal word carries completes with ERR_ILLEGAL. -/
def Obligations.CreateWithAReservedSelectorIsIllegal : Prop :=
  ∀ (s : State) (c : BitVec 3) (w h f0 f1 f2 : Half), 4 < c.toNat →
    RespondsOnly (.create c w h f0 f1 f2) s 5 0

/-- 60_exceptions R207: at the conforming capacity CREATE with non-zero dimensions and a legal fill always
succeeds, for every dimension; below it, exactly the buffers that do not fit get ERR_CAPACITY. -/
def Obligations.CapacityErrorNeedsASmallerStore : Prop :=
  ∀ (s : State) (e : Enc) (w h f0 f1 f2 : Half), w ≠ 0 → h ≠ 0 → PixelLegal e ⟨f0, f1, f2⟩ →
    ((s.cfg.pixCapacity < w.toNat * h.toNat ↔
      RespondsOnly (.create e.code w h f0 f1 f2) s 7 0)) ∧
    (s.cfg.pixCapacity = 4294836225 →
      ∃ t, exec (.create e.code w h f0 f1 f2) s = .next t ∧ t.live = true ∧
        t.rspq = some (rspNumber 0 0))

/-- 41_image_buffer R122, GET. -/
def Obligations.GetAnswersThePixel : Prop :=
  ∀ (s : State) (x y : Half),
    (s.live = false → RespondsOnly (.get x y) s 4 0) ∧
    (s.live = true → (s.width.toNat ≤ x.toNat ∨ s.height.toNat ≤ y.toNat) →
      RespondsOnly (.get x y) s 2
        ((if s.width.toNat ≤ x.toNat then 1 else 0) + (if s.height.toNat ≤ y.toNat then 2 else 0))) ∧
    (BufferInv s → s.live = true → x.toNat < s.width.toNat → y.toNat < s.height.toNat →
      ∃ p, s.pix.toList[y.toNat * s.width.toNat + x.toNat]? = some p ∧
        RespondsOnly (.get x y) s 0
          (p.c0.toNat + p.c1.toNat * 2 ^ 16 + p.c2.toNat * 2 ^ 32)) ∧
    MalformedAnswersIllegal 2 legalGet s

/-- 41_image_buffer R124, SET. -/
def Obligations.SetWritesThePixelOrRefuses : Prop :=
  ∀ (s : State) (x y v0 v1 v2 : Half),
    (s.live = false → RespondsOnly (.set x y v0 v1 v2) s 4 0) ∧
    (s.live = true → (s.width.toNat ≤ x.toNat ∨ s.height.toNat ≤ y.toNat) →
      RespondsOnly (.set x y v0 v1 v2) s 2
        ((if s.width.toNat ≤ x.toNat then 1 else 0) + (if s.height.toNat ≤ y.toNat then 2 else 0))) ∧
    (s.live = true → x.toNat < s.width.toNat → y.toNat < s.height.toNat →
      ¬ PixelLegal s.enc ⟨v0, v1, v2⟩ → RespondsOnly (.set x y v0 v1 v2) s 6 0) ∧
    (BufferInv s → s.live = true → x.toNat < s.width.toNat → y.toNat < s.height.toNat →
      PixelLegal s.enc ⟨v0, v1, v2⟩ →
      ∃ m, exec (.set x y v0 v1 v2) s =
          .next { s with pix := m, rspq := some (rspNumber 0 0) } ∧
        m.toList = s.pix.toList.set (y.toNat * s.width.toNat + x.toNat) ⟨v0, v1, v2⟩) ∧
    MalformedAnswersIllegal 3 legalSet s

/-- 41_image_buffer R126, INFO: in every state, 0 where there is no buffer. -/
def Obligations.InfoAnswersTheDimensions : Prop :=
  ∀ s : State,
    RespondsOnly .info s 0
      (s.width.toNat + s.height.toNat * 2 ^ 16 + s.enc.code.toNat * 2 ^ 32 +
        (if s.live then 1 else 0) * 2 ^ 35) ∧
    (BufferInv s → s.live = false → RespondsOnly .info s 0 0) ∧
    MalformedAnswersIllegal 6 legalInfo s

/-- 40_pixel_model R107, GETCH. -/
def Obligations.GetchAnswersTheChannel : Prop :=
  ∀ (s : State) (x y : Half) (ch : BitVec 4),
    (s.live = false → RespondsOnly (.getch x y ch) s 4 0) ∧
    (s.live = true → (s.width.toNat ≤ x.toNat ∨ s.height.toNat ≤ y.toNat) →
      RespondsOnly (.getch x y ch) s 2
        ((if s.width.toNat ≤ x.toNat then 1 else 0) + (if s.height.toNat ≤ y.toNat then 2 else 0))) ∧
    (s.live = true → x.toNat < s.width.toNat → y.toNat < s.height.toNat →
      s.enc.componentCount ≤ ch.toNat → RespondsOnly (.getch x y ch) s 3 0) ∧
    (BufferInv s → s.live = true → x.toNat < s.width.toNat → y.toNat < s.height.toNat →
      ch.toNat < s.enc.componentCount →
      ∃ p v, s.pix.toList[y.toNat * s.width.toNat + x.toNat]? = some p ∧
        [p.c0, p.c1, p.c2][ch.toNat]? = some v ∧ v.toNat ≤ s.enc.chanMax ∧
        RespondsOnly (.getch x y ch) s 0 v.toNat) ∧
    MalformedAnswersIllegal 4 legalGetch s

/-- 40_pixel_model R108, SETCH: only the named channel of the named pixel changes. -/
def Obligations.SetchWritesTheChannelOrRefuses : Prop :=
  ∀ (s : State) (x y : Half) (ch : BitVec 4) (v : Half),
    (s.live = false → RespondsOnly (.setch x y ch v) s 4 0) ∧
    (s.live = true → (s.width.toNat ≤ x.toNat ∨ s.height.toNat ≤ y.toNat) →
      RespondsOnly (.setch x y ch v) s 2
        ((if s.width.toNat ≤ x.toNat then 1 else 0) + (if s.height.toNat ≤ y.toNat then 2 else 0))) ∧
    (s.live = true → x.toNat < s.width.toNat → y.toNat < s.height.toNat →
      s.enc.componentCount ≤ ch.toNat → RespondsOnly (.setch x y ch v) s 3 0) ∧
    (s.live = true → x.toNat < s.width.toNat → y.toNat < s.height.toNat →
      ch.toNat < s.enc.componentCount → s.enc.chanMax < v.toNat →
      RespondsOnly (.setch x y ch v) s 6 0) ∧
    (BufferInv s → s.live = true → x.toNat < s.width.toNat → y.toNat < s.height.toNat →
      ch.toNat < s.enc.componentCount → v.toNat ≤ s.enc.chanMax →
      ∃ m p, s.pix.toList[y.toNat * s.width.toNat + x.toNat]? = some p ∧
        exec (.setch x y ch v) s = .next { s with pix := m, rspq := some (rspNumber 0 0) } ∧
        m.toList = s.pix.toList.set (y.toNat * s.width.toNat + x.toNat)
          ⟨if ch = 0 then v else p.c0, if ch = 1 then v else p.c1, if ch = 2 then v else p.c2⟩) ∧
    MalformedAnswersIllegal 5 legalSetch s

/-- 42_serializer R169, R172, R59 of 20_memory: for a live buffer SERT and SERB always succeed: OUTQ is the
whole stream of the state at that moment, the response with its length is held, and nothing else changes;
with no buffer nothing is emitted. -/
def Obligations.SerializeNeverFailsForALiveBuffer : Prop :=
  ∀ s : State,
    (s.live = false → RespondsOnly .sert s 4 0 ∧ RespondsOnly .serb s 4 0) ∧
    (BufferInv s → s.live = true →
      exec .sert s = .next { s with
        outq := streamOf .text s
        held := some (rspNumber 0 (streamOf .text s).length) } ∧
      exec .serb s = .next { s with
        outq := streamOf .binary s
        held := some (rspNumber 0 (streamOf .binary s).length) }) ∧
    MalformedAnswersIllegal 7 legalSerialize s

/-- The model's choice of log entry 3: a command that needs an entry the store lacks stops the machine.
The buffer invariant rules such states out. -/
def Obligations.MissingEntryStopsTheAccess : Prop :=
  ∀ (s : State) (x y : Half), s.live = true → x.toNat < s.width.toNat → y.toNat < s.height.toNat →
    s.pix.size ≤ y.toNat * s.width.toNat + x.toNat →
    exec (.get x y) s = .fault .pixelMissing ∧
    exec (.getch x y 0) s = .fault .pixelMissing ∧
    (∀ v0 v1 v2, PixelLegal s.enc ⟨v0, v1, v2⟩ →
      exec (.set x y v0 v1 v2) s = .fault .pixelMissing ∧
      exec (.setch x y 0 v0) s = .fault .pixelMissing) ∧
    exec .sert s = .fault .pixelMissing ∧ exec .serb s = .fault .pixelMissing

/-! ## Frames -/

/-- 20_memory R59, the frame of the commands that write no pixel: GET, GETCH and INFO write RSPQ alone,
SERT and SERB only OUTQ, RSPQ and the response they hold, so every entry of the store reads as before. -/
def Obligations.ReadingCommandsWriteOnlyBookkeeping : Prop :=
  (∀ (s t : State) (x y : Half), exec (.get x y) s = .next t → t = { s with rspq := t.rspq }) ∧
  (∀ (s t : State) (x y : Half) (ch : BitVec 4), exec (.getch x y ch) s = .next t →
    t = { s with rspq := t.rspq }) ∧
  (∀ s t : State, exec .info s = .next t → t = { s with rspq := t.rspq }) ∧
  (∀ s t : State, (exec .sert s = .next t ∨ exec .serb s = .next t) →
    t = { s with outq := t.outq, rspq := t.rspq, held := t.held }) ∧
  (∀ (s t : State) (i : Instr),
    (∃ x y, i = .get x y) ∨ (∃ x y ch, i = .getch x y ch) ∨ i = .info ∨ i = .sert ∨ i = .serb →
    exec i s = .next t → ∀ j, t.pix.read j = s.pix.read j)

/-- 40_pixel_model R106, 41_image_buffer R124, 40_pixel_model R108, the frame of SET and SETCH: only RSPQ
and the entry idx(x, y), computed as the meaning computes it, may change. -/
def Obligations.PixelWritesChangeOnlyTheNamedEntry : Prop :=
  ∀ (s t : State) (x y : Half) (i : Instr),
    ((∃ v0 v1 v2, i = .set x y v0 v1 v2) ∨ (∃ ch v, i = .setch x y ch v)) →
    exec i s = .next t →
    t = { s with pix := t.pix, rspq := t.rspq } ∧ t.pix.size = s.pix.size ∧
    ∀ j, j ≠ pixelIndex s x y → t.pix.read j = s.pix.read j

/-- The frame of CREATE (41_image_buffer R120): the buffer and RSPQ, nothing else. -/
def Obligations.CreateChangesOnlyTheBuffer : Prop :=
  ∀ (s t : State) (c : BitVec 3) (w h f0 f1 f2 : Half),
    exec (.create c w h f0 f1 f2) s = .next t →
    t = { s with
      live := t.live, enc := t.enc, width := t.width, height := t.height, pix := t.pix
      rspq := t.rspq } ∧
    (t.live = false → s.live = false)

/-- 20_memory R59: repeating a successful SET or SETCH leaves the very same state. -/
def Obligations.PixelWritesAreIdempotent : Prop :=
  ∀ (s t : State) (x y : Half) (i : Instr), BufferInv s →
    ((∃ v0 v1 v2, i = .set x y v0 v1 v2) ∨ (∃ ch v, i = .setch x y ch v)) →
    exec i s = .next t → exec i t = .next t

/-- 60_exceptions R208: whatever word is taken, legal or not, a response with a non-zero STATUS means that
the word changed nothing and emitted nothing; it gets its one response. -/
def Obligations.FailedCommandChangesNothing : Prop :=
  ∀ (s t : State) (w : CmdWord) (r : RspWord), Inv s → s.cmdTransfer = some w →
    step s = .next t → t.rspq = some r → rspStatus r ≠ 0 →
    t = { s with
      busy := true, rspq := some r, cmdq := s.cmdq.tail, ticks := s.ticks.tail }

/-- 60_exceptions R210, R200: the STATUS reported is the first error of the priority list that applies, with
the DATA of its kind (both halves of a coordinate or dimension check), and a command with none succeeds. -/
def Obligations.FirstApplicableErrorIsReported : Prop :=
  ∀ (s : State) (w : CmdWord), BufferInv s → s.rspq = none → s.held = none →
    ∃ t r, perform w s = .next t ∧ (t.rspq = some r ∨ t.rspq = none ∧ t.held = some r) ∧
      rspStatus r = firstError s w ∧
      (firstError s w ≠ 0 → r = rspNumber (firstError s w) (errorDetail s w))

/-- 60_exceptions R209: after a word that reports an error, the next word does exactly what it would have
done without it; only the host has one more response. -/
def Obligations.ErrorsAreNotLatched : Prop :=
  ∀ (s : State) (w v : CmdWord), BufferInv s → Idle s → firstError s w ≠ 0 →
    ∃ r q, rspStatus r = firstError s w ∧
      (atomically s v).hostGot = s.hostGot ++ [q] ∧
      atomically (atomically s w) v = { atomically s v with hostGot := s.hostGot ++ [r, q] }

/-! ## The buffer over time -/

/-- 41_image_buffer R128: a value written by a successful SET or SETCH is what GET or GETCH answers, with
any commands between that do not write the pixel; a pair out of range fails both to read and to write; and
a write to one pixel changes no other. -/
def Obligations.WrittenValueIsReadBack : Prop :=
  ∀ (s : State) (x y : Half) (ws : List CmdWord), BufferInv s → Idle s → s.live = true →
    (x.toNat < s.width.toNat → y.toNat < s.height.toNat →
      (∀ w ∈ ws, mayWrite w x y = false) →
      (∀ v0 v1 v2, PixelLegal s.enc ⟨v0, v1, v2⟩ →
        RespondsOnly (.get x y) (ws.foldl atomically (atomically s (encode (.set x y v0 v1 v2)))) 0
          (v0.toNat + v1.toNat * 2 ^ 16 + v2.toNat * 2 ^ 32)) ∧
      (∀ (ch : BitVec 4) (v : Half), ch.toNat < s.enc.componentCount → v.toNat ≤ s.enc.chanMax →
        RespondsOnly (.getch x y ch)
          (ws.foldl atomically (atomically s (encode (.setch x y ch v)))) 0 v.toNat)) ∧
    ((s.width.toNat ≤ x.toNat ∨ s.height.toNat ≤ y.toNat) → ∀ v0 v1 v2,
      ∃ d, RespondsOnly (.get x y) s 2 d ∧ RespondsOnly (.set x y v0 v1 v2) s 2 d) ∧
    (∀ (x' y' v0 v1 v2 : Half), x'.toNat < s.width.toNat → y'.toNat < s.height.toNat →
      x.toNat < s.width.toNat → y.toNat < s.height.toNat → (x' ≠ x ∨ y' ≠ y) →
      (atomically s (encode (.set x y v0 v1 v2))).pix.read (pixelIndex s x' y') =
        s.pix.read (pixelIndex s x' y') ∧
      ∀ (ch : BitVec 4) (v : Half),
        (atomically s (encode (.setch x y ch v))).pix.read (pixelIndex s x' y') =
          s.pix.read (pixelIndex s x' y'))

/-- 10_state R22, 41_image_buffer R129: while `rst` is 0, LIVE is never cleared, and WIDTH, HEIGHT and ENC
change only in a step that takes a CREATE and succeeds. -/
def Obligations.DimensionsChangeOnlyBySuccessfulCreate : Prop :=
  ∀ s t : State, s.tick.rst = false → step s = .next t →
    (s.live = true → t.live = true) ∧
    ((t.width = s.width ∧ t.height = s.height ∧ t.enc = s.enc ∧ t.live = s.live) ∨
      ∃ w, s.cmdTransfer = some w ∧ w.toNat % 16 = 1 ∧ t.rspq = some (rspNumber 0 0) ∧
        t.live = true)

/-- 20_memory R51: idx is y * WIDTH + x; it names distinct entries of the store for distinct pixels, row
after row, and the largest index is 4294836224. -/
def Obligations.LinearIndexIsRowMajorAndInRange : Prop :=
  ∀ (s : State) (x y x' y' : Half),
    x.toNat < s.width.toNat → y.toNat < s.height.toNat →
    x'.toNat < s.width.toNat → y'.toNat < s.height.toNat →
    pixelIndex s x y = y.toNat * s.width.toNat + x.toNat ∧
    pixelIndex s x y < s.width.toNat * s.height.toNat ∧
    pixelIndex s x y ≤ 4294836224 ∧
    (s.width = 65535 → s.height = 65535 → pixelIndex s 65534 65534 = 4294836224) ∧
    (pixelIndex s x y = pixelIndex s x' y' → x = x' ∧ y = y') ∧
    (pixelIndex s x y < pixelIndex s x' y' ↔
      y.toNat < y'.toNat ∨ (y.toNat = y'.toNat ∧ x.toNat < x'.toNat))

/-- The model's choice of log entry 1 represents the sequence of 10_state R26 faithfully: two canonical
stores with the same entries are the same list, and a read is the entry at its index. -/
def Obligations.CanonicalStoresAreEqualWhenTheirEntriesAre : Prop :=
  ∀ a b : Memory, a.wf = true → b.wf = true →
    ((∀ i, a.read i = b.read i) ↔ a = b) ∧ (∀ i, a.read i = a.toList[i]?)

/-! ## The traits and the stream -/

/-- 40_pixel_model R100, R101, R102 and 30_encoding R84, R85: the table of the five encodings. -/
def Obligations.TraitsAreTheStatedTable : Prop :=
  (∀ e : Enc,
    (e.code.toNat, e.componentCount, e.maxValue, e.chanMax, e.chanBits, e.textFormatId,
        e.binaryFormatId) ∈
      [(0, 1, none, 1, 1, 1, 4), (1, 1, some 255, 255, 8, 2, 5),
        (2, 1, some 65535, 65535, 16, 2, 5), (3, 3, some 255, 255, 8, 3, 6),
        (4, 3, some 65535, 65535, 16, 3, 6)]) ∧
  (∀ c : BitVec 3, (∃ e : Enc, e.code = c) ↔ c.toNat ≤ 4) ∧
  (∀ e e' : Enc, e.code = e'.code → e = e') ∧
  (∀ e : Enc, e.binaryFormatId = e.textFormatId + 3)

/-- 42_serializer R153: `dec(v)` reads back as `v`, in the digits 0x30 to 0x39, with no leading zero, in
the stated number of digits. -/
def Obligations.DecimalRenderingIsCanonical : Prop :=
  ∀ v : Nat,
    (dec v).foldl (fun n b => 10 * n + (b.toNat - 0x30)) 0 = v ∧
    (∀ b ∈ dec v, 0x30 ≤ b.toNat ∧ b.toNat ≤ 0x39) ∧
    (v ≠ 0 → (dec v).head? ≠ some 0x30) ∧ dec 0 = [0x30] ∧
    (v ≤ 9 → (dec v).length = 1) ∧
    (10 ≤ v → v ≤ 99 → (dec v).length = 2) ∧
    (100 ≤ v → v ≤ 999 → (dec v).length = 3) ∧
    (1000 ≤ v → v ≤ 9999 → (dec v).length = 4) ∧
    (10000 ≤ v → v ≤ 65535 → (dec v).length = 5)

/-- 42_serializer R152: a stream is the header followed by the body and nothing else, with the body that the
mode and the encoding select. -/
def Obligations.StreamIsHeaderThenBody : Prop :=
  ∀ s : State,
    let w := s.width.toNat
    let h := s.height.toNat
    streamOf .text s = header .text s.enc w h ++ textBody s.enc s.pix w h ∧
    (s.enc.code = 0 → streamOf .binary s = header .binary s.enc w h ++ bilevelBody s.pix w h) ∧
    (s.enc.code ≠ 0 → streamOf .binary s = header .binary s.enc w h ++ sampleBody s.enc s.pix w h)

/-- 30_encoding R86: a header and a text body are made of `P`, digits, spaces and newlines alone. -/
def Obligations.HeaderAndTextBodyUseTheStatedCharacters : Prop :=
  (∀ (m : Mode) (e : Enc) (w h : Nat), ∀ b ∈ header m e w h,
    b = 0x50 ∨ b = 0x20 ∨ b = 0x0A ∨ (0x30 ≤ b.toNat ∧ b.toNat ≤ 0x39)) ∧
  (∀ (e : Enc) (pix : Memory) (w h : Nat), ∀ b ∈ body .text e pix w h,
    b = 0x20 ∨ (0x30 ≤ b.toNat ∧ b.toNat ≤ 0x39))

/-- 42_serializer R154, R155: the header, byte by byte around the two dimensions. -/
def Obligations.HeaderIsTheStatedLines : Prop :=
  ∀ w h : Nat,
    header .text .bilevel w h = [0x50, 0x31, 0x20] ++ dec w ++ [0x20] ++ dec h ++ [0x0A] ∧
    header .binary .bilevel w h = [0x50, 0x34, 0x20] ++ dec w ++ [0x20] ++ dec h ++ [0x0A] ∧
    header .text .gray8 w h =
      [0x50, 0x32, 0x20] ++ dec w ++ [0x20] ++ dec h ++ [0x0A, 0x32, 0x35, 0x35, 0x0A] ∧
    header .binary .gray8 w h =
      [0x50, 0x35, 0x20] ++ dec w ++ [0x20] ++ dec h ++ [0x0A, 0x32, 0x35, 0x35, 0x0A] ∧
    header .text .gray16 w h =
      [0x50, 0x32, 0x20] ++ dec w ++ [0x20] ++ dec h ++ [0x0A, 0x36, 0x35, 0x35, 0x33, 0x35, 0x0A] ∧
    header .binary .gray16 w h =
      [0x50, 0x35, 0x20] ++ dec w ++ [0x20] ++ dec h ++ [0x0A, 0x36, 0x35, 0x35, 0x33, 0x35, 0x0A] ∧
    header .text .rgb8 w h =
      [0x50, 0x33, 0x20] ++ dec w ++ [0x20] ++ dec h ++ [0x0A, 0x32, 0x35, 0x35, 0x0A] ∧
    header .binary .rgb8 w h =
      [0x50, 0x36, 0x20] ++ dec w ++ [0x20] ++ dec h ++ [0x0A, 0x32, 0x35, 0x35, 0x0A] ∧
    header .text .rgb16 w h =
      [0x50, 0x33, 0x20] ++ dec w ++ [0x20] ++ dec h ++ [0x0A, 0x36, 0x35, 0x35, 0x33, 0x35, 0x0A] ∧
    header .binary .rgb16 w h =
      [0x50, 0x36, 0x20] ++ dec w ++ [0x20] ++ dec h ++ [0x0A, 0x36, 0x35, 0x35, 0x33, 0x35, 0x0A]

/-- 42_serializer R156: the header's length, the same in both modes, from 7 to 21 bytes. -/
def Obligations.HeaderLengthIsTheStatedSum : Prop :=
  ∀ (m : Mode) (e : Enc) (w h : Nat),
    (header m e w h).length =
      5 + (dec w).length + (dec h).length +
        (match e.chanBits with | 1 => 0 | 8 => 4 | _ => 6) ∧
    (1 ≤ w → w ≤ 65535 → 1 ≤ h → h ≤ 65535 →
      7 ≤ (header m e w h).length ∧ (header m e w h).length ≤ 21) ∧
    (header m .bilevel 1 1).length = 7 ∧ (header m .rgb16 65535 65535).length = 21

/-- 42_serializer R157: the text body visits the entries of the store in their order, and of each its
channels in encoding order, each as decimal digits and one space. -/
def Obligations.TextBodyIsTheEntriesInOrder : Prop :=
  ∀ s : State, BufferInv s → s.live = true →
    body .text s.enc s.pix s.width.toNat s.height.toNat =
      s.pix.toList.flatMap fun p =>
        if s.enc.componentCount = 3 then
          dec p.c0.toNat ++ [0x20] ++ dec p.c1.toNat ++ [0x20] ++ dec p.c2.toNat ++ [0x20]
        else dec p.c0.toNat ++ [0x20]

/-- 42_serializer R158: the text body ends in a space, and its length is the sum over pixels and channels
of D(value) + 1, within the stated bounds. -/
def Obligations.TextBodyLengthIsTheStatedSum : Prop :=
  ∀ s : State, BufferInv s → s.live = true →
    let b := body .text s.enc s.pix s.width.toNat s.height.toNat
    let n := s.width.toNat * s.height.toNat * s.enc.componentCount
    b.getLast? = some 0x20 ∧
    b.length = (s.pix.toList.map fun p =>
      ((s.enc.channels.map fun c => (dec (p.chan c).toNat).length + 1)).sum).sum ∧
    2 * n ≤ b.length ∧ b.length ≤ ((dec s.enc.chanMax).length + 1) * n

/-- 42_serializer R159: a bi-level text body is the digit 1 for true and 0 for false, each followed by a
space, so 2 * WIDTH * HEIGHT bytes. -/
def Obligations.BilevelTextIsOneDigitAPixel : Prop :=
  ∀ s : State, BufferInv s → s.live = true → s.enc = .bilevel →
    body .text s.enc s.pix s.width.toNat s.height.toNat =
      (s.pix.toList.flatMap fun p => [if p.c0 = 1 then 0x31 else 0x30, 0x20]) ∧
    (body .text s.enc s.pix s.width.toNat s.height.toNat).length =
      2 * s.width.toNat * s.height.toNat

/-- 42_serializer R160, R161, R162: the sample body is the entries in order, each channel as one byte or as
two bytes with the least significant first, with nothing between, and has the stated length. -/
def Obligations.SampleBodyIsLittleEndianInOrder : Prop :=
  ∀ s : State, BufferInv s → s.live = true → s.enc ≠ .bilevel →
    let b := body .binary s.enc s.pix s.width.toNat s.height.toNat
    let lo := fun v : Half => BitVec.ofNat 8 (v.toNat % 256)
    let hi := fun v : Half => BitVec.ofNat 8 (v.toNat / 256)
    (s.enc = .gray8 → b = s.pix.toList.flatMap fun p => [lo p.c0]) ∧
    (s.enc = .gray16 → b = s.pix.toList.flatMap fun p => [lo p.c0, hi p.c0]) ∧
    (s.enc = .rgb8 → b = s.pix.toList.flatMap fun p => [lo p.c0, lo p.c1, lo p.c2]) ∧
    (s.enc = .rgb16 →
      b = s.pix.toList.flatMap fun p => [lo p.c0, hi p.c0, lo p.c1, hi p.c1, lo p.c2, hi p.c2]) ∧
    b.length =
      s.width.toNat * s.height.toNat * s.enc.componentCount * (s.enc.chanBits / 8)

/-- 42_serializer R163 to R166: bit 7 - x mod 8 of byte x div 8 of a row is 0 for a true pixel and 1 for a
false one, every padding bit is 1, and each row takes ceil(WIDTH / 8) bytes. -/
def Obligations.BilevelBodyStoresTheInvertedPixels : Prop :=
  ∀ s : State, BufferInv s → s.live = true → s.enc = .bilevel →
    let b := body .binary s.enc s.pix s.width.toNat s.height.toNat
    let rowBytes := (s.width.toNat + 7) / 8
    b.length = s.height.toNat * rowBytes ∧
    ∀ y g k, y < s.height.toNat → g < rowBytes → k < 8 →
      ∃ byte, b[y * rowBytes + g]? = some byte ∧
        byte.getLsbD (7 - k) =
          (if 8 * g + k < s.width.toNat then
            !decide ((s.pix.toList[y * s.width.toNat + (8 * g + k)]?).map Pixel.c0 = some 1)
          else true)

/-- 42_serializer R167: the length of a stream is that of header and body, at least 8 bytes (9 in text
mode) and at most 77307052071, which the largest RGB-16 text stream reaches; it fits DATA. -/
def Obligations.StreamLengthIsWithinTheStatedBounds : Prop :=
  ∀ (s : State) (m : Mode), BufferInv s → s.live = true →
    (streamOf m s).length =
      (header m s.enc s.width.toNat s.height.toNat).length +
        (body m s.enc s.pix s.width.toNat s.height.toNat).length ∧
    8 ≤ (streamOf m s).length ∧ (m = .text → 9 ≤ (streamOf m s).length) ∧
    (streamOf m s).length ≤ 77307052071 ∧ (streamOf m s).length < 2 ^ 37 ∧
    (m = .binary → s.enc = .bilevel → s.width = 1 → s.height = 1 → (streamOf m s).length = 8) ∧
    (m = .text → s.enc = .bilevel → s.width = 1 → s.height = 1 → (streamOf m s).length = 9) ∧
    (m = .text → s.enc = .rgb16 → s.width = 65535 → s.height = 65535 →
      (∀ p ∈ s.pix.toList, 10000 ≤ p.c0.toNat ∧ 10000 ≤ p.c1.toNat ∧ 10000 ≤ p.c2.toNat) →
      (streamOf m s).length = 77307052071)

/-- 42_serializer R168: two buffers with the same ENC, WIDTH, HEIGHT and entries give the same stream; two
serializations in one mode with no CREATE, SET or SETCH word between them send the same bytes and leave the
buffer as it was. -/
def Obligations.StreamDependsOnTheBufferAlone : Prop :=
  (∀ (m : Mode) (s s' : State), s'.enc = s.enc → s'.width = s.width → s'.height = s.height →
    (∀ i, s'.pix.read i = s.pix.read i) → streamOf m s' = streamOf m s) ∧
  (∀ (s : State) (m : Mode) (ws : List CmdWord), BufferInv s → Idle s → s.live = true →
    (∀ w ∈ ws, w.toNat % 16 ≠ 1 ∧ w.toNat % 16 ≠ 3 ∧ w.toNat % 16 ≠ 5) →
    let t := atomically s (encode (serializeCommand m))
    let u := ws.foldl atomically t
    let v := atomically u (encode (serializeCommand m))
    ∃ sent, t.sinkGot = s.sinkGot ++ sent ∧ v.sinkGot = u.sinkGot ++ sent ∧
      sent.map (fun o => o.data) = streamOf m s ∧
      v.live = true ∧ v.enc = s.enc ∧ v.width = s.width ∧ v.height = s.height ∧ v.pix = s.pix)

/-! ## Serializations on the ports -/

/-- 42_serializer R150, R151, R170, R171: with sink and host ready, a SERT or SERB word taken on a live
buffer sends every byte of its stream in order, the last one alone marked, then one response with the
stream's length, and leaves the block idle with its buffer unchanged. The number of steps is the model's: an
empty schedule means a ready environment (log entry 5) and the first step takes the word (log entry 24), while
the spec gives a transfer no time. -/
def Obligations.SerializationDeliversExactlyTheStream : Prop :=
  ∀ (s : State) (m : Mode), Inv s → s.live = true → s.busy = false → s.ticks = [] →
    s.presented = some (encode (serializeCommand m)) →
    ∃ sent : List OutTransfer,
      run ((streamOf m s).length + 2) s = .next { s with
        cmdq := s.cmdq.tail
        sinkGot := s.sinkGot ++ sent
        hostGot := s.hostGot ++ [rspNumber 0 (streamOf m s).length] } ∧
      sent.map (fun t => t.data) = streamOf m s ∧
      (∀ (k : Nat) (t : OutTransfer), sent[k]? = some t →
        (t.last = true ↔ k + 1 = (streamOf m s).length)) ∧
      (∀ k : Nat, k < (streamOf m s).length → ∃ t, run (1 + k) s = .next t ∧
        t.sinkGot = s.sinkGot ++ sent.take k ∧ t.hostGot = s.hostGot ∧ t.rspq = none)

/-- 42_serializer R170, R171, R172, in any environment without reset: until the response of a serialization
has been transferred, the sink has had the first `k` bytes of the stream computed at acceptance, marked at
the last one alone, the others wait in OUTQ, the buffer is as it was, and the response, with the stream's
length, is in RSPQ exactly when `k` is that length. That the first step takes the word presented is the model's
choice of log entry 24. -/
def Obligations.ResponseFollowsTheLastByte : Prop :=
  ∀ (s t : State) (m : Mode) (n : Nat), Inv s → s.live = true → s.busy = false →
    s.presented = some (encode (serializeCommand m)) → (∀ tk ∈ s.ticks, tk.rst = false) →
    run (n + 1) s = .next t → t.hostGot = s.hostGot →
    ∃ (k : Nat) (sent : List OutTransfer), k ≤ (streamOf m s).length ∧
      t.sinkGot = s.sinkGot ++ sent ∧
      sent.map (fun o => o.data) = (streamOf m s).take k ∧
      (∀ (j : Nat) (o : OutTransfer), sent[j]? = some o →
        (o.last = true ↔ j + 1 = (streamOf m s).length)) ∧
      t.outq = (streamOf m s).drop k ∧
      t.rspq = (if k = (streamOf m s).length then some (rspNumber 0 (streamOf m s).length) else none) ∧
      t.live = true ∧ t.enc = s.enc ∧ t.width = s.width ∧ t.height = s.height ∧ t.pix = s.pix ∧
      t.busy = true ∧ t.cmdq = s.cmdq.tail

/-- 70_reset R232: a reset after `k` bytes of a serialization aborts it: the sink keeps a proper prefix of
the stream without an end marker, the host gets no response, and the block has nothing left to send. The number
of steps is the model's (log entries 5 and 24), and so is the held response, which is empty after the reset (log
entry 9). -/
def Obligations.ResetAbortsASerialization : Prop :=
  ∀ (s : State) (m : Mode) (k : Nat) (r : Tick), Inv s → s.live = true → s.busy = false →
    k < (streamOf m s).length → r.rst = true → s.ticks = List.replicate (1 + k) Tick.go ++ [r] →
    s.presented = some (encode (serializeCommand m)) →
    ∃ t sent, run (k + 2) s = .next t ∧ t.sinkGot = s.sinkGot ++ sent ∧
      sent.map (fun o => o.data) = (streamOf m s).take k ∧ (∀ o ∈ sent, o.last = false) ∧
      t.hostGot = s.hostGot ∧ t.outq = [] ∧ t.rspq = none ∧ t.held = none ∧ t.busy = false ∧
      t.live = false

/-- 70_reset R232, after any stalls: when `rst` rises while bytes of a serialization still wait, however long
the sink took over the ones before, the sink keeps a proper prefix of the stream without an end marker, and
the reset step sends nothing; while the host presents no further word, no byte and no response follows. -/
def Obligations.ResetAfterStallsAbortsASerialization : Prop :=
  ∀ (s u : State) (m : Mode) (n : Nat), Inv s → s.live = true →
    s.cmdTransfer = some (encode (serializeCommand m)) →
    (∀ tk ∈ s.ticks.take (n + 1), tk.rst = false) →
    run (n + 1) s = .next u → u.hostGot = s.hostGot → u.outq ≠ [] → u.tick.rst = true →
    ∃ (t : State) (k : Nat) (sent : List OutTransfer), step u = .next t ∧
      k < (streamOf m s).length ∧ t.sinkGot = s.sinkGot ++ sent ∧
      sent.map (fun o => o.data) = (streamOf m s).take k ∧ (∀ o ∈ sent, o.last = false) ∧
      t.hostGot = s.hostGot ∧ t.outq = [] ∧ t.rspq = none ∧ t.busy = false ∧ t.live = false ∧
      ∀ j, ∃ v, run j { t with cmdq := [] } = .next v ∧
        v.sinkGot = t.sinkGot ∧ v.hostGot = t.hostGot
end

