-- ==== Sys2Proof/Laws/Decode.lean ====
section
/-! SUPPORT. The fields of a word, the decoder on packed words, and the masks of 30_encoding R76 as
conditions on the fields. -/

namespace Sys2Proof

theorem append_toNat {n m : Nat} (x : BitVec n) (y : BitVec m) :
    (x ++ y).toNat = x.toNat * 2 ^ m + y.toNat := by
  rw [BitVec.toNat_append, ← Nat.shiftLeft_add_eq_or_of_lt y.isLt, Nat.shiftLeft_eq]

/-! ## The fields as numbers -/

section
variable (w : CmdWord)

theorem fieldOP_toNat : (fieldOP w).toNat = w.toNat % 2 ^ 4 := by
  simp [fieldOP, Nat.shiftRight_eq_div_pow]
theorem fieldSEL_toNat : (fieldSEL w).toNat = w.toNat / 2 ^ 4 % 2 ^ 4 := by
  simp [fieldSEL, Nat.shiftRight_eq_div_pow]
theorem fieldA_toNat : (fieldA w).toNat = w.toNat / 2 ^ 8 % 2 ^ 16 := by
  simp [fieldA, Nat.shiftRight_eq_div_pow]
theorem fieldB_toNat : (fieldB w).toNat = w.toNat / 2 ^ 24 % 2 ^ 16 := by
  simp [fieldB, Nat.shiftRight_eq_div_pow]
theorem fieldV0_toNat : (fieldV0 w).toNat = w.toNat / 2 ^ 40 % 2 ^ 16 := by
  simp [fieldV0, Nat.shiftRight_eq_div_pow]
theorem fieldV1_toNat : (fieldV1 w).toNat = w.toNat / 2 ^ 56 % 2 ^ 16 := by
  simp [fieldV1, Nat.shiftRight_eq_div_pow]
theorem fieldV2_toNat : (fieldV2 w).toNat = w.toNat / 2 ^ 72 % 2 ^ 16 := by
  simp [fieldV2, Nat.shiftRight_eq_div_pow]
theorem fieldRSV_toNat : (fieldRSV w).toNat = w.toNat / 2 ^ 88 % 2 ^ 8 := by
  simp [fieldRSV, Nat.shiftRight_eq_div_pow]
end

/-! ## A word from its fields -/

/-- A word is its eight fields, RSV among them. -/
theorem word_eq_fields (w : CmdWord) :
    w = fieldRSV w ++ fieldV2 w ++ fieldV1 w ++ fieldV0 w ++ fieldB w ++ fieldA w ++ fieldSEL w ++
      fieldOP w := by
  apply BitVec.eq_of_toNat_eq
  iterate 7 rw [append_toNat]
  rw [fieldOP_toNat, fieldSEL_toNat, fieldA_toNat, fieldB_toNat, fieldV0_toNat, fieldV1_toNat,
    fieldV2_toNat, fieldRSV_toNat]
  have := w.isLt
  omega

theorem append_eq_append_iff {n m : Nat} (x x' : BitVec n) (y y' : BitVec m) :
    x ++ y = x' ++ y' ↔ x = x' ∧ y = y' := by
  constructor
  · intro h
    have h' := congrArg BitVec.toNat h
    simp only [append_toNat] at h'
    have hy := y.isLt
    have hy' := y'.isLt
    have hxy : x.toNat = x'.toNat := by
      have e1 : (x.toNat * 2 ^ m + y.toNat) / 2 ^ m = x.toNat := by
        rw [Nat.mul_comm, Nat.mul_add_div (by omega), Nat.div_eq_of_lt hy, Nat.add_zero]
      have e2 : (x'.toNat * 2 ^ m + y'.toNat) / 2 ^ m = x'.toNat := by
        rw [Nat.mul_comm, Nat.mul_add_div (by omega), Nat.div_eq_of_lt hy', Nat.add_zero]
      rw [← e1, ← e2, h']
    refine ⟨BitVec.eq_of_toNat_eq hxy, BitVec.eq_of_toNat_eq ?_⟩
    rw [hxy] at h'
    omega
  · rintro ⟨rfl, rfl⟩
    rfl

section
variable (op sel : BitVec 4) (a b v0 v1 v2 : Half)

theorem packWord_toNat :
    (packWord op sel a b v0 v1 v2).toNat =
      op.toNat + sel.toNat * 2 ^ 4 + a.toNat * 2 ^ 8 + b.toNat * 2 ^ 24 + v0.toNat * 2 ^ 40 +
        v1.toNat * 2 ^ 56 + v2.toNat * 2 ^ 72 := by
  unfold packWord
  iterate 7 rw [append_toNat]
  simp only [BitVec.toNat_ofNat, Nat.zero_mod]
  omega

@[simp] theorem fieldOP_packWord : fieldOP (packWord op sel a b v0 v1 v2) = op := by
  apply BitVec.eq_of_toNat_eq
  rw [fieldOP_toNat, packWord_toNat]
  omega
@[simp] theorem fieldSEL_packWord : fieldSEL (packWord op sel a b v0 v1 v2) = sel := by
  apply BitVec.eq_of_toNat_eq
  rw [fieldSEL_toNat, packWord_toNat]
  omega
@[simp] theorem fieldA_packWord : fieldA (packWord op sel a b v0 v1 v2) = a := by
  apply BitVec.eq_of_toNat_eq
  rw [fieldA_toNat, packWord_toNat]
  omega
@[simp] theorem fieldB_packWord : fieldB (packWord op sel a b v0 v1 v2) = b := by
  apply BitVec.eq_of_toNat_eq
  rw [fieldB_toNat, packWord_toNat]
  omega
@[simp] theorem fieldV0_packWord : fieldV0 (packWord op sel a b v0 v1 v2) = v0 := by
  apply BitVec.eq_of_toNat_eq
  rw [fieldV0_toNat, packWord_toNat]
  omega
@[simp] theorem fieldV1_packWord : fieldV1 (packWord op sel a b v0 v1 v2) = v1 := by
  apply BitVec.eq_of_toNat_eq
  rw [fieldV1_toNat, packWord_toNat]
  omega
@[simp] theorem fieldV2_packWord : fieldV2 (packWord op sel a b v0 v1 v2) = v2 := by
  apply BitVec.eq_of_toNat_eq
  rw [fieldV2_toNat, packWord_toNat]
  omega
@[simp] theorem fieldRSV_packWord : fieldRSV (packWord op sel a b v0 v1 v2) = 0 := by
  apply BitVec.eq_of_toNat_eq
  rw [fieldRSV_toNat, packWord_toNat]
  show _ = 0
  omega
end

/-- A word with RSV 0 is packed from its other fields. -/
theorem packWord_fields (w : CmdWord) (h : fieldRSV w = 0) :
    packWord (fieldOP w) (fieldSEL w) (fieldA w) (fieldB w) (fieldV0 w) (fieldV1 w) (fieldV2 w) =
      w := by
  conv => rhs; rw [word_eq_fields w, h]
  rfl

/-! ## Masks, 30_encoding R76 -/

/-- A masked comparison of words is one of every field. -/
theorem masked_eq_iff (w : CmdWord) (m0 p0 m1 p1 : BitVec 4) (m2 p2 m3 p3 m4 p4 m5 p5 m6 p6 : Half)
    (m7 p7 : BitVec 8) :
    w &&& (m7 ++ m6 ++ m5 ++ m4 ++ m3 ++ m2 ++ m1 ++ m0 : CmdWord) =
        (p7 ++ p6 ++ p5 ++ p4 ++ p3 ++ p2 ++ p1 ++ p0 : CmdWord) ↔
      fieldRSV w &&& m7 = p7 ∧ fieldV2 w &&& m6 = p6 ∧ fieldV1 w &&& m5 = p5 ∧
      fieldV0 w &&& m4 = p4 ∧ fieldB w &&& m3 = p3 ∧ fieldA w &&& m2 = p2 ∧
      fieldSEL w &&& m1 = p1 ∧ fieldOP w &&& m0 = p0 := by
  conv => lhs; lhs; rw [word_eq_fields w]
  iterate 7 rw [BitVec.and_append]
  iterate 7 rw [append_eq_append_iff]
  simp only [and_assoc]


/-! ## The legal words of each opcode, by their fields -/

theorem and_full4 (x : BitVec 4) : x &&& 15#4 = x := BitVec.and_allOnes
theorem and_full8 (x : BitVec 8) : x &&& 255#8 = x := BitVec.and_allOnes
theorem and_full16 (x : Half) : x &&& 65535#16 = x := BitVec.and_allOnes

namespace Machine

theorem legalGet_iff (w : CmdWord) :
    legalGet w = true ↔
      fieldRSV w = 0 ∧ fieldV2 w = 0 ∧ fieldV1 w = 0 ∧ fieldV0 w = 0 ∧ fieldSEL w = 0 ∧ fieldOP w = 2 := by
  have h := masked_eq_iff w 0xF 2 0xF 0 0 0 0 0 0xFFFF 0 0xFFFF 0 0xFFFF 0 0xFF 0
  unfold legalGet
  rw [beq_iff_eq]
  refine h.trans ?_
  simp [and_full4, and_full8, and_full16]

theorem legalSet_iff (w : CmdWord) :
    legalSet w = true ↔
      fieldRSV w = 0 ∧ fieldSEL w = 0 ∧ fieldOP w = 3 := by
  have h := masked_eq_iff w 0xF 3 0xF 0 0 0 0 0 0 0 0 0 0 0 0xFF 0
  unfold legalSet
  rw [beq_iff_eq]
  refine h.trans ?_
  simp [and_full4, and_full8]

theorem legalGetch_iff (w : CmdWord) :
    legalGetch w = true ↔
      fieldRSV w = 0 ∧ fieldV2 w = 0 ∧ fieldV1 w = 0 ∧ fieldV0 w = 0 ∧ fieldOP w = 4 := by
  have h := masked_eq_iff w 0xF 4 0 0 0 0 0 0 0xFFFF 0 0xFFFF 0 0xFFFF 0 0xFF 0
  unfold legalGetch
  rw [beq_iff_eq]
  refine h.trans ?_
  simp [and_full4, and_full8, and_full16]

theorem legalSetch_iff (w : CmdWord) :
    legalSetch w = true ↔
      fieldRSV w = 0 ∧ fieldV2 w = 0 ∧ fieldV1 w = 0 ∧ fieldOP w = 5 := by
  have h := masked_eq_iff w 0xF 5 0 0 0 0 0 0 0 0 0xFFFF 0 0xFFFF 0 0xFF 0
  unfold legalSetch
  rw [beq_iff_eq]
  refine h.trans ?_
  simp [and_full4, and_full8, and_full16]

theorem legalInfo_iff (w : CmdWord) :
    legalInfo w = true ↔
      fieldRSV w = 0 ∧ fieldV2 w = 0 ∧ fieldV1 w = 0 ∧ fieldV0 w = 0 ∧ fieldB w = 0 ∧ fieldA w = 0 ∧ fieldSEL w = 0 ∧ fieldOP w = 6 := by
  have h := masked_eq_iff w 0xF 6 0xF 0 0xFFFF 0 0xFFFF 0 0xFFFF 0 0xFFFF 0 0xFFFF 0 0xFF 0
  unfold legalInfo
  rw [beq_iff_eq]
  refine h.trans ?_
  simp [and_full4, and_full8, and_full16]

theorem sertMask_iff (w : CmdWord) :
    w &&& 0xFFFF_FFFF_FFFF_FFFF_FFFF_FFFF = 0x7 ↔
      fieldRSV w = 0 ∧ fieldV2 w = 0 ∧ fieldV1 w = 0 ∧ fieldV0 w = 0 ∧ fieldB w = 0 ∧
      fieldA w = 0 ∧ fieldSEL w = 0 ∧ fieldOP w = 7 := by
  have h := masked_eq_iff w 0xF 7 0xF 0 0xFFFF 0 0xFFFF 0 0xFFFF 0 0xFFFF 0 0xFFFF 0 0xFF 0
  refine h.trans ?_
  simp [and_full4, and_full8, and_full16]

theorem serbMask_iff (w : CmdWord) :
    w &&& 0xFFFF_FFFF_FFFF_FFFF_FFFF_FFFF = 0x17 ↔
      fieldRSV w = 0 ∧ fieldV2 w = 0 ∧ fieldV1 w = 0 ∧ fieldV0 w = 0 ∧ fieldB w = 0 ∧
      fieldA w = 0 ∧ fieldSEL w = 1 ∧ fieldOP w = 7 := by
  have h := masked_eq_iff w 0xF 7 0xF 1 0xFFFF 0 0xFFFF 0 0xFFFF 0 0xFFFF 0 0xFFFF 0 0xFF 0
  refine h.trans ?_
  simp [and_full4, and_full8, and_full16]

theorem legalSerialize_iff (w : CmdWord) :
    legalSerialize w = true ↔
      fieldRSV w = 0 ∧ fieldV2 w = 0 ∧ fieldV1 w = 0 ∧ fieldV0 w = 0 ∧ fieldB w = 0 ∧
      fieldA w = 0 ∧ (fieldSEL w = 0 ∨ fieldSEL w = 1) ∧ fieldOP w = 7 := by
  unfold legalSerialize
  rw [Bool.or_eq_true, beq_iff_eq, beq_iff_eq, sertMask_iff, serbMask_iff]
  constructor
  · rintro (⟨h1, h2, h3, h4, h5, h6, h7, h8⟩ | ⟨h1, h2, h3, h4, h5, h6, h7, h8⟩)
    · exact ⟨h1, h2, h3, h4, h5, h6, .inl h7, h8⟩
    · exact ⟨h1, h2, h3, h4, h5, h6, .inr h7, h8⟩
  · rintro ⟨h1, h2, h3, h4, h5, h6, h7 | h7, h8⟩
    · exact .inl ⟨h1, h2, h3, h4, h5, h6, h7, h8⟩
    · exact .inr ⟨h1, h2, h3, h4, h5, h6, h7, h8⟩

theorem createMask_iff (w : CmdWord) :
    w &&& 0xFF00_0000_0000_0000_0000_008F = 0x1 ↔
      fieldRSV w = 0 ∧ fieldSEL w &&& 8 = 0 ∧ fieldOP w = 1 := by
  have h := masked_eq_iff w 0xF 1 8 0 0 0 0 0 0 0 0 0 0 0 0xFF 0
  refine h.trans ?_
  simp [and_full4, and_full8]

theorem legalCreate_iff (w : CmdWord) :
    legalCreate w = true ↔
      (fieldRSV w = 0 ∧ fieldSEL w &&& 8 = 0 ∧ fieldOP w = 1) ∧ (fieldSEL w).toNat % 8 ≤ 4 := by
  unfold legalCreate
  rw [Bool.and_eq_true, beq_iff_eq, decide_eq_true_eq, createMask_iff, fieldSEL_toNat]
  have e : w.toNat / 2 ^ 4 % 2 ^ 4 % 8 = w.toNat / 2 ^ 4 % 8 := by omega
  rw [e]

end Machine
end Sys2Proof
end

