-- ==== Sys2Proof/Laws/Operands.lean ====
section
/-! SUPPORT. The traits, the checks and the response words, each in one lemma. -/

namespace Sys2Proof.Machine

/-! ## Encodings and channels -/

@[simp] theorem Enc.ofCode?_code (e : Enc) : Enc.ofCode? e.code = some e := by
  cases e <;> rfl

theorem Enc.ofCode?_eq_some (c : BitVec 3) (e : Enc) : Enc.ofCode? c = some e ↔ c = e.code := by
  constructor
  · revert c
    cases e <;> decide
  · rintro rfl
    exact Enc.ofCode?_code e

theorem Enc.ofCode?_eq_none (c : BitVec 3) : Enc.ofCode? c = none ↔ 4 < c.toNat := by
  revert c
  decide

theorem Enc.componentCount_cases (e : Enc) : e.componentCount = 1 ∨ e.componentCount = 3 := by
  cases e <;> simp [Enc.componentCount]

theorem Enc.chanMax_lt (e : Enc) : 1 ≤ e.chanMax ∧ e.chanMax ≤ 65535 := by
  cases e <;> simp [Enc.chanMax]

theorem channel?_eq_some (e : Enc) (ch : BitVec 4) (c : Fin 3) :
    channel? e ch = some c ↔ ch.toNat = c.val ∧ c.val < e.componentCount := by
  revert ch c
  cases e <;> decide

theorem channel?_eq_none (e : Enc) (ch : BitVec 4) :
    channel? e ch = none ↔ e.componentCount ≤ ch.toNat := by
  revert ch
  cases e <;> decide

theorem Pixel.chan_withChan (p : Pixel) (c d : Fin 3) (v : Half) :
    (p.withChan c v).chan d = if d = c then v else p.chan d := by
  fin_cases c <;> fin_cases d <;> rfl

theorem Pixel.ext_chan {p q : Pixel} (h : ∀ c, p.chan c = q.chan c) : p = q := by
  cases p
  cases q
  simp only [Pixel.mk.injEq]
  exact ⟨h 0, h 1, h 2⟩

/-! ## The value check -/

/-- The value check of a command is the entry invariant of 10_state R27. -/
theorem valueOK_iff (e : Enc) (p : Pixel) : valueOK e p = true ↔ PixelLegal e p := by
  have h3 : PixelLegal e p ↔
      ((0 < e.componentCount → p.c0.toNat ≤ e.chanMax) ∧ (e.componentCount ≤ 0 → p.c0 = 0)) ∧
      ((1 < e.componentCount → p.c1.toNat ≤ e.chanMax) ∧ (e.componentCount ≤ 1 → p.c1 = 0)) ∧
      ((2 < e.componentCount → p.c2.toNat ≤ e.chanMax) ∧ (e.componentCount ≤ 2 → p.c2 = 0)) := by
    constructor
    · intro h
      exact ⟨h 0, h 1, h 2⟩
    · rintro ⟨h0, h1, h2⟩ c
      fin_cases c
      · exact h0
      · exact h1
      · exact h2
  rw [h3]
  rcases Enc.componentCount_cases e with hc | hc <;> simp [valueOK, chanOK, hc]

theorem PixelLegal.withChan {e : Enc} {p : Pixel} (h : PixelLegal e p) {c : Fin 3} {v : Half}
    (hc : c.val < e.componentCount) (hv : v.toNat ≤ e.chanMax) : PixelLegal e (p.withChan c v) := by
  intro d
  rw [Pixel.chan_withChan]
  by_cases hd : d = c
  · subst hd
    simp only [if_true]
    exact ⟨fun _ => hv, fun h' => absurd hc (by omega)⟩
  · simp only [hd, if_false]
    exact h d

/-! ## Bounds -/

theorem xbad_iff (s : State) (x : Half) : xbad s x = true ↔ s.width.toNat ≤ x.toNat := by
  simp [xbad]

theorem ybad_iff (s : State) (y : Half) : ybad s y = true ↔ s.height.toNat ≤ y.toNat := by
  simp [ybad]

/-- In bounds, the index is below the number of entries (20_memory R51). -/
theorem idx_lt {w h x y : Nat} (hx : x < w) (hy : y < h) : idx w x y < w * h := by
  unfold idx
  calc y * w + x < y * w + w := by omega
    _ = (y + 1) * w := by ring
    _ ≤ h * w := Nat.mul_le_mul_right w hy
    _ = w * h := Nat.mul_comm h w

/-! ## Response words -/

theorem responseWord_toNat (st : Status) (d : RspData) :
    (responseWord st d).toNat = st.code.toNat + d.toNat * 2 ^ 8 := by
  unfold responseWord
  rw [BitVec.toNat_append, BitVec.toNat_append, ← Nat.shiftLeft_add_eq_or_of_lt st.code.isLt,
    ← Nat.shiftLeft_add_eq_or_of_lt (0#4).isLt]
  simp only [Nat.shiftLeft_eq, BitVec.toNat_ofNat]
  omega

/-- A response with DATA that fits is the number of 30_encoding R80. -/
theorem responseWord_eq (st : Status) (d : Nat) (h : d < 2 ^ 56) :
    responseWord st (zext56 d) = rspNumber st.code.toNat d := by
  apply BitVec.eq_of_toNat_eq
  have hs := st.code.isLt
  rw [responseWord_toNat, zext56, rspNumber, BitVec.toNat_ofNat, BitVec.toNat_ofNat,
    Nat.mod_eq_of_lt h]
  omega

theorem rspStatus_responseWord (st : Status) (d : RspData) :
    rspStatus (responseWord st d) = st.code.toNat := by
  have hs := st.code.isLt
  rw [rspStatus, responseWord_toNat]
  omega

theorem rspStatus_rspNumber (st d : Nat) (h : st < 16) :
    rspStatus (rspNumber st d) = st := by
  rw [rspStatus, rspNumber, BitVec.toNat_ofNat]
  omega

theorem Status.code_le (st : Status) : st.code.toNat ≤ 7 := by
  cases st <;> decide

theorem responseWord_rsvr (st : Status) (d : RspData) :
    (responseWord st d).extractLsb' 4 4 = 0 := by
  apply BitVec.eq_of_toNat_eq
  have hs := st.code.isLt
  rw [BitVec.extractLsb'_toNat, responseWord_toNat, Nat.shiftRight_eq_div_pow]
  show _ = 0
  omega

end Sys2Proof.Machine
end

