-- ==== Sys2Proof/Laws/State.lean ====
section
/-! SUPPORT. What every named update of the state does to every field. -/

namespace Sys2Proof.Machine

variable (s : State)

/-! ## State.setResponse -/

@[simp] theorem State.setResponse_live (st : Status) (d : RspData) :
    (s.setResponse st d).live = s.live := rfl
@[simp] theorem State.setResponse_enc (st : Status) (d : RspData) :
    (s.setResponse st d).enc = s.enc := rfl
@[simp] theorem State.setResponse_width (st : Status) (d : RspData) :
    (s.setResponse st d).width = s.width := rfl
@[simp] theorem State.setResponse_height (st : Status) (d : RspData) :
    (s.setResponse st d).height = s.height := rfl
@[simp] theorem State.setResponse_pix (st : Status) (d : RspData) :
    (s.setResponse st d).pix = s.pix := rfl
@[simp] theorem State.setResponse_busy (st : Status) (d : RspData) :
    (s.setResponse st d).busy = s.busy := rfl
@[simp] theorem State.setResponse_outq (st : Status) (d : RspData) :
    (s.setResponse st d).outq = s.outq := rfl
@[simp] theorem State.setResponse_rspq (st : Status) (d : RspData) :
    (s.setResponse st d).rspq = some (responseWord st d) := rfl
@[simp] theorem State.setResponse_held (st : Status) (d : RspData) :
    (s.setResponse st d).held = s.held := rfl
@[simp] theorem State.setResponse_cfg (st : Status) (d : RspData) :
    (s.setResponse st d).cfg = s.cfg := rfl
@[simp] theorem State.setResponse_cmdq (st : Status) (d : RspData) :
    (s.setResponse st d).cmdq = s.cmdq := rfl
@[simp] theorem State.setResponse_ticks (st : Status) (d : RspData) :
    (s.setResponse st d).ticks = s.ticks := rfl
@[simp] theorem State.setResponse_hostGot (st : Status) (d : RspData) :
    (s.setResponse st d).hostGot = s.hostGot := rfl
@[simp] theorem State.setResponse_sinkGot (st : Status) (d : RspData) :
    (s.setResponse st d).sinkGot = s.sinkGot := rfl

/-! ## State.storePixel -/

@[simp] theorem State.storePixel_live (i : Nat) (p : Pixel) :
    (s.storePixel i p).live = s.live := rfl
@[simp] theorem State.storePixel_enc (i : Nat) (p : Pixel) : (s.storePixel i p).enc = s.enc := rfl
@[simp] theorem State.storePixel_width (i : Nat) (p : Pixel) :
    (s.storePixel i p).width = s.width := rfl
@[simp] theorem State.storePixel_height (i : Nat) (p : Pixel) :
    (s.storePixel i p).height = s.height := rfl
@[simp] theorem State.storePixel_pix (i : Nat) (p : Pixel) :
    (s.storePixel i p).pix = s.pix.write i p := rfl
@[simp] theorem State.storePixel_busy (i : Nat) (p : Pixel) :
    (s.storePixel i p).busy = s.busy := rfl
@[simp] theorem State.storePixel_outq (i : Nat) (p : Pixel) :
    (s.storePixel i p).outq = s.outq := rfl
@[simp] theorem State.storePixel_rspq (i : Nat) (p : Pixel) :
    (s.storePixel i p).rspq = s.rspq := rfl
@[simp] theorem State.storePixel_held (i : Nat) (p : Pixel) :
    (s.storePixel i p).held = s.held := rfl
@[simp] theorem State.storePixel_cfg (i : Nat) (p : Pixel) : (s.storePixel i p).cfg = s.cfg := rfl
@[simp] theorem State.storePixel_cmdq (i : Nat) (p : Pixel) :
    (s.storePixel i p).cmdq = s.cmdq := rfl
@[simp] theorem State.storePixel_ticks (i : Nat) (p : Pixel) :
    (s.storePixel i p).ticks = s.ticks := rfl
@[simp] theorem State.storePixel_hostGot (i : Nat) (p : Pixel) :
    (s.storePixel i p).hostGot = s.hostGot := rfl
@[simp] theorem State.storePixel_sinkGot (i : Nat) (p : Pixel) :
    (s.storePixel i p).sinkGot = s.sinkGot := rfl

/-! ## State.newBuffer -/

@[simp] theorem State.newBuffer_live (e : Enc) (w h : Half) (p : Pixel) :
    (s.newBuffer e w h p).live = true := rfl
@[simp] theorem State.newBuffer_enc (e : Enc) (w h : Half) (p : Pixel) :
    (s.newBuffer e w h p).enc = e := rfl
@[simp] theorem State.newBuffer_width (e : Enc) (w h : Half) (p : Pixel) :
    (s.newBuffer e w h p).width = w := rfl
@[simp] theorem State.newBuffer_height (e : Enc) (w h : Half) (p : Pixel) :
    (s.newBuffer e w h p).height = h := rfl
@[simp] theorem State.newBuffer_pix (e : Enc) (w h : Half) (p : Pixel) :
    (s.newBuffer e w h p).pix = Memory.fill (w.toNat * h.toNat) p := rfl
@[simp] theorem State.newBuffer_busy (e : Enc) (w h : Half) (p : Pixel) :
    (s.newBuffer e w h p).busy = s.busy := rfl
@[simp] theorem State.newBuffer_outq (e : Enc) (w h : Half) (p : Pixel) :
    (s.newBuffer e w h p).outq = s.outq := rfl
@[simp] theorem State.newBuffer_rspq (e : Enc) (w h : Half) (p : Pixel) :
    (s.newBuffer e w h p).rspq = s.rspq := rfl
@[simp] theorem State.newBuffer_held (e : Enc) (w h : Half) (p : Pixel) :
    (s.newBuffer e w h p).held = s.held := rfl
@[simp] theorem State.newBuffer_cfg (e : Enc) (w h : Half) (p : Pixel) :
    (s.newBuffer e w h p).cfg = s.cfg := rfl
@[simp] theorem State.newBuffer_cmdq (e : Enc) (w h : Half) (p : Pixel) :
    (s.newBuffer e w h p).cmdq = s.cmdq := rfl
@[simp] theorem State.newBuffer_ticks (e : Enc) (w h : Half) (p : Pixel) :
    (s.newBuffer e w h p).ticks = s.ticks := rfl
@[simp] theorem State.newBuffer_hostGot (e : Enc) (w h : Half) (p : Pixel) :
    (s.newBuffer e w h p).hostGot = s.hostGot := rfl
@[simp] theorem State.newBuffer_sinkGot (e : Enc) (w h : Half) (p : Pixel) :
    (s.newBuffer e w h p).sinkGot = s.sinkGot := rfl

/-! ## State.beginStream -/

@[simp] theorem State.beginStream_live (bs : List Byte) : (s.beginStream bs).live = s.live := rfl
@[simp] theorem State.beginStream_enc (bs : List Byte) : (s.beginStream bs).enc = s.enc := rfl
@[simp] theorem State.beginStream_width (bs : List Byte) :
    (s.beginStream bs).width = s.width := rfl
@[simp] theorem State.beginStream_height (bs : List Byte) :
    (s.beginStream bs).height = s.height := rfl
@[simp] theorem State.beginStream_pix (bs : List Byte) : (s.beginStream bs).pix = s.pix := rfl
@[simp] theorem State.beginStream_busy (bs : List Byte) : (s.beginStream bs).busy = s.busy := rfl
@[simp] theorem State.beginStream_outq (bs : List Byte) : (s.beginStream bs).outq = bs := rfl
@[simp] theorem State.beginStream_rspq (bs : List Byte) : (s.beginStream bs).rspq = s.rspq := rfl
@[simp] theorem State.beginStream_held (bs : List Byte) :
    (s.beginStream bs).held = some (responseWord .ok (zext56 bs.length)) := rfl
@[simp] theorem State.beginStream_cfg (bs : List Byte) : (s.beginStream bs).cfg = s.cfg := rfl
@[simp] theorem State.beginStream_cmdq (bs : List Byte) : (s.beginStream bs).cmdq = s.cmdq := rfl
@[simp] theorem State.beginStream_ticks (bs : List Byte) :
    (s.beginStream bs).ticks = s.ticks := rfl
@[simp] theorem State.beginStream_hostGot (bs : List Byte) :
    (s.beginStream bs).hostGot = s.hostGot := rfl
@[simp] theorem State.beginStream_sinkGot (bs : List Byte) :
    (s.beginStream bs).sinkGot = s.sinkGot := rfl

/-! ## State.advance -/

@[simp] theorem State.advance_live : (s.advance).live = s.live := rfl
@[simp] theorem State.advance_enc : (s.advance).enc = s.enc := rfl
@[simp] theorem State.advance_width : (s.advance).width = s.width := rfl
@[simp] theorem State.advance_height : (s.advance).height = s.height := rfl
@[simp] theorem State.advance_pix : (s.advance).pix = s.pix := rfl
@[simp] theorem State.advance_busy : (s.advance).busy = s.busy := rfl
@[simp] theorem State.advance_outq : (s.advance).outq = s.outq := rfl
@[simp] theorem State.advance_rspq : (s.advance).rspq = s.rspq := rfl
@[simp] theorem State.advance_held : (s.advance).held = s.held := rfl
@[simp] theorem State.advance_cfg : (s.advance).cfg = s.cfg := rfl
@[simp] theorem State.advance_cmdq : (s.advance).cmdq = s.cmdq := rfl
@[simp] theorem State.advance_ticks : (s.advance).ticks = s.ticks.tail := rfl
@[simp] theorem State.advance_hostGot : (s.advance).hostGot = s.hostGot := rfl
@[simp] theorem State.advance_sinkGot : (s.advance).sinkGot = s.sinkGot := rfl

/-! ## State.takeCommand -/

@[simp] theorem State.takeCommand_live : (s.takeCommand).live = s.live := rfl
@[simp] theorem State.takeCommand_enc : (s.takeCommand).enc = s.enc := rfl
@[simp] theorem State.takeCommand_width : (s.takeCommand).width = s.width := rfl
@[simp] theorem State.takeCommand_height : (s.takeCommand).height = s.height := rfl
@[simp] theorem State.takeCommand_pix : (s.takeCommand).pix = s.pix := rfl
@[simp] theorem State.takeCommand_busy : (s.takeCommand).busy = true := rfl
@[simp] theorem State.takeCommand_outq : (s.takeCommand).outq = s.outq := rfl
@[simp] theorem State.takeCommand_rspq : (s.takeCommand).rspq = s.rspq := rfl
@[simp] theorem State.takeCommand_held : (s.takeCommand).held = s.held := rfl
@[simp] theorem State.takeCommand_cfg : (s.takeCommand).cfg = s.cfg := rfl
@[simp] theorem State.takeCommand_cmdq : (s.takeCommand).cmdq = s.cmdq.tail := rfl
@[simp] theorem State.takeCommand_ticks : (s.takeCommand).ticks = s.ticks := rfl
@[simp] theorem State.takeCommand_hostGot : (s.takeCommand).hostGot = s.hostGot := rfl
@[simp] theorem State.takeCommand_sinkGot : (s.takeCommand).sinkGot = s.sinkGot := rfl

/-! ## State.sendByte -/

@[simp] theorem State.sendByte_live (t : OutTransfer) : (s.sendByte t).live = s.live := rfl
@[simp] theorem State.sendByte_enc (t : OutTransfer) : (s.sendByte t).enc = s.enc := rfl
@[simp] theorem State.sendByte_width (t : OutTransfer) : (s.sendByte t).width = s.width := rfl
@[simp] theorem State.sendByte_height (t : OutTransfer) : (s.sendByte t).height = s.height := rfl
@[simp] theorem State.sendByte_pix (t : OutTransfer) : (s.sendByte t).pix = s.pix := rfl
@[simp] theorem State.sendByte_busy (t : OutTransfer) : (s.sendByte t).busy = s.busy := rfl
@[simp] theorem State.sendByte_outq (t : OutTransfer) : (s.sendByte t).outq = s.outq.tail := rfl
@[simp] theorem State.sendByte_rspq (t : OutTransfer) :
    (s.sendByte t).rspq = if t.last then s.held else s.rspq := rfl
@[simp] theorem State.sendByte_held (t : OutTransfer) :
    (s.sendByte t).held = if t.last then none else s.held := rfl
@[simp] theorem State.sendByte_cfg (t : OutTransfer) : (s.sendByte t).cfg = s.cfg := rfl
@[simp] theorem State.sendByte_cmdq (t : OutTransfer) : (s.sendByte t).cmdq = s.cmdq := rfl
@[simp] theorem State.sendByte_ticks (t : OutTransfer) : (s.sendByte t).ticks = s.ticks := rfl
@[simp] theorem State.sendByte_hostGot (t : OutTransfer) :
    (s.sendByte t).hostGot = s.hostGot := rfl
@[simp] theorem State.sendByte_sinkGot (t : OutTransfer) :
    (s.sendByte t).sinkGot = s.sinkGot ++ [t] := rfl

/-! ## State.sendRsp -/

@[simp] theorem State.sendRsp_live (r : RspWord) : (s.sendRsp r).live = s.live := rfl
@[simp] theorem State.sendRsp_enc (r : RspWord) : (s.sendRsp r).enc = s.enc := rfl
@[simp] theorem State.sendRsp_width (r : RspWord) : (s.sendRsp r).width = s.width := rfl
@[simp] theorem State.sendRsp_height (r : RspWord) : (s.sendRsp r).height = s.height := rfl
@[simp] theorem State.sendRsp_pix (r : RspWord) : (s.sendRsp r).pix = s.pix := rfl
@[simp] theorem State.sendRsp_busy (r : RspWord) : (s.sendRsp r).busy = false := rfl
@[simp] theorem State.sendRsp_outq (r : RspWord) : (s.sendRsp r).outq = s.outq := rfl
@[simp] theorem State.sendRsp_rspq (r : RspWord) : (s.sendRsp r).rspq = none := rfl
@[simp] theorem State.sendRsp_held (r : RspWord) : (s.sendRsp r).held = s.held := rfl
@[simp] theorem State.sendRsp_cfg (r : RspWord) : (s.sendRsp r).cfg = s.cfg := rfl
@[simp] theorem State.sendRsp_cmdq (r : RspWord) : (s.sendRsp r).cmdq = s.cmdq := rfl
@[simp] theorem State.sendRsp_ticks (r : RspWord) : (s.sendRsp r).ticks = s.ticks := rfl
@[simp] theorem State.sendRsp_hostGot (r : RspWord) :
    (s.sendRsp r).hostGot = s.hostGot ++ [r] := rfl
@[simp] theorem State.sendRsp_sinkGot (r : RspWord) : (s.sendRsp r).sinkGot = s.sinkGot := rfl

/-! ## State.resetBlock -/

@[simp] theorem State.resetBlock_live : (s.resetBlock).live = false := rfl
@[simp] theorem State.resetBlock_enc : (s.resetBlock).enc = .bilevel := rfl
@[simp] theorem State.resetBlock_width : (s.resetBlock).width = 0 := rfl
@[simp] theorem State.resetBlock_height : (s.resetBlock).height = 0 := rfl
@[simp] theorem State.resetBlock_pix : (s.resetBlock).pix = [] := rfl
@[simp] theorem State.resetBlock_busy : (s.resetBlock).busy = false := rfl
@[simp] theorem State.resetBlock_outq : (s.resetBlock).outq = [] := rfl
@[simp] theorem State.resetBlock_rspq : (s.resetBlock).rspq = none := rfl
@[simp] theorem State.resetBlock_held : (s.resetBlock).held = none := rfl
@[simp] theorem State.resetBlock_cfg : (s.resetBlock).cfg = s.cfg := rfl
@[simp] theorem State.resetBlock_cmdq : (s.resetBlock).cmdq = s.cmdq := rfl
@[simp] theorem State.resetBlock_ticks : (s.resetBlock).ticks = s.ticks := rfl
@[simp] theorem State.resetBlock_hostGot : (s.resetBlock).hostGot = s.hostGot := rfl
@[simp] theorem State.resetBlock_sinkGot : (s.resetBlock).sinkGot = s.sinkGot := rfl

/-! ## State.present -/

@[simp] theorem State.present_live (c : CmdWord) : (s.present c).live = s.live := rfl
@[simp] theorem State.present_enc (c : CmdWord) : (s.present c).enc = s.enc := rfl
@[simp] theorem State.present_width (c : CmdWord) : (s.present c).width = s.width := rfl
@[simp] theorem State.present_height (c : CmdWord) : (s.present c).height = s.height := rfl
@[simp] theorem State.present_pix (c : CmdWord) : (s.present c).pix = s.pix := rfl
@[simp] theorem State.present_busy (c : CmdWord) : (s.present c).busy = false := rfl
@[simp] theorem State.present_outq (c : CmdWord) : (s.present c).outq = s.outq := rfl
@[simp] theorem State.present_rspq (c : CmdWord) : (s.present c).rspq = s.rspq := rfl
@[simp] theorem State.present_held (c : CmdWord) : (s.present c).held = s.held := rfl
@[simp] theorem State.present_cfg (c : CmdWord) : (s.present c).cfg = s.cfg := rfl
@[simp] theorem State.present_cmdq (c : CmdWord) : (s.present c).cmdq = c :: s.cmdq := rfl
@[simp] theorem State.present_ticks (c : CmdWord) :
    (s.present c).ticks = Tick.go :: s.ticks := rfl
@[simp] theorem State.present_hostGot (c : CmdWord) : (s.present c).hostGot = s.hostGot := rfl
@[simp] theorem State.present_sinkGot (c : CmdWord) : (s.present c).sinkGot = s.sinkGot := rfl

end Sys2Proof.Machine
end

