-- ==== Sys2Proof/Laws/Store.lean ====
section
/-! SUPPORT. The pixel store: every operation keeps the canonical form, and each is what it should be on
the flat sequence of entries. -/

namespace Sys2Proof.Machine

@[simp] theorem Memory.toList_nil : Memory.toList [] = [] := rfl

@[simp] theorem Memory.toList_cons (r : Run) (m : Memory) :
    Memory.toList (r :: m) = List.replicate r.count r.pixel ++ Memory.toList m := rfl

theorem Memory.length_toList (m : Memory) : m.toList.length = m.size := by
  induction m with
  | nil => rfl
  | cons r m ih => simp [Memory.size, ih]

theorem Memory.toList_push (n : Nat) (p : Pixel) (m : Memory) :
    (Memory.push n p m).toList = List.replicate n p ++ m.toList := by
  unfold Memory.push
  by_cases hn : n = 0
  · simp [hn]
  · cases m with
    | nil => simp [hn]
    | cons r m =>
      by_cases hp : r.pixel = p
      · simp only [hn, hp, if_true, if_false, Memory.toList_cons, ← List.append_assoc,
          List.replicate_append_replicate]
      · simp [hn, hp]

theorem Memory.toList_fill (n : Nat) (p : Pixel) :
    (Memory.fill n p).toList = List.replicate n p := by
  simp [Memory.fill, Memory.toList_push]

theorem Memory.read_eq_toList (m : Memory) : ∀ i, m.read i = m.toList[i]? := by
  induction m with
  | nil => intro i; simp [Memory.read]
  | cons r m ih =>
    intro i
    by_cases hi : i < r.count
    · simp [Memory.read, hi, List.getElem?_append_left]
    · have hle : r.count ≤ i := by omega
      simp [Memory.read, hi, ih, List.getElem?_append_right, hle]

theorem Memory.toList_write (m : Memory) :
    ∀ (i : Nat) (p : Pixel), (m.write i p).toList = m.toList.set i p := by
  induction m with
  | nil => intro i p; simp [Memory.write]
  | cons r m ih =>
    intro i p
    by_cases hi : i < r.count
    · obtain ⟨k, hk⟩ : ∃ k, r.count = i + 1 + k := ⟨r.count - 1 - i, by omega⟩
      have hk' : r.count - 1 - i = k := by omega
      have hlt : i < (List.replicate r.count r.pixel).length := by simpa using hi
      simp only [Memory.write, hi, if_true, hk', Memory.toList_push, Memory.toList_cons,
        List.set_append_left _ _ hlt]
      rw [hk, ← List.append_assoc, ← List.append_assoc]
      congr 1
      apply List.ext_getElem
      · simp only [List.length_append, List.length_replicate, List.length_set]
      · intro j h1 h2
        simp only [List.getElem_append, List.getElem_set, List.getElem_replicate,
          List.length_append, List.length_replicate]
        split_ifs <;> first | rfl | omega
    · have hle : r.count ≤ i := by omega
      simp [Memory.write, hi, Memory.toList_push, ih, List.set_append_right, hle]

theorem Memory.size_write (m : Memory) (i : Nat) (p : Pixel) : (m.write i p).size = m.size := by
  rw [← Memory.length_toList, ← Memory.length_toList, Memory.toList_write, List.length_set]

theorem Memory.size_fill (n : Nat) (p : Pixel) : (Memory.fill n p).size = n := by
  rw [← Memory.length_toList, Memory.toList_fill, List.length_replicate]

/-- A read succeeds exactly below the store's size. -/
theorem Memory.read_isSome (m : Memory) (i : Nat) : (m.read i).isSome = true ↔ i < m.size := by
  simp [Memory.read_eq_toList, ← Memory.length_toList]

theorem Memory.read_write (m : Memory) (i j : Nat) (p : Pixel) :
    (m.write i p).read j = if i = j ∧ i < m.size then some p else m.read j := by
  simp only [Memory.read_eq_toList, Memory.toList_write, List.getElem?_set,
    Memory.length_toList]
  by_cases h : i = j
  · subst h
    by_cases h2 : i < m.size
    · simp [h2]
    · have h3 : m.read i = none := by
        rw [← Option.not_isSome_iff_eq_none, Memory.read_isSome]
        exact h2
      simp [h2, ← Memory.read_eq_toList, h3]
  · simp [h]

/-! ## The canonical form -/

theorem Memory.wf_cons (r : Run) (m : Memory) :
    Memory.wf (r :: m) = true ↔
      r.count ≠ 0 ∧ (∀ q ∈ m.head?, r.pixel ≠ q.pixel) ∧ Memory.wf m = true := by
  cases m with
  | nil => simp [Memory.wf]
  | cons q m => simp [Memory.wf, and_assoc]

theorem Memory.wf_push (n : Nat) (p : Pixel) (m : Memory) (h : m.wf = true) :
    (Memory.push n p m).wf = true := by
  unfold Memory.push
  by_cases hn : n = 0
  · simpa [hn] using h
  · cases m with
    | nil => simp [hn, Memory.wf]
    | cons r m =>
      rw [Memory.wf_cons] at h
      by_cases hp : r.pixel = p
      · subst hp
        simp only [hn, if_false, if_true, Memory.wf_cons]
        exact ⟨by omega, h.2⟩
      · have hp' : p ≠ r.pixel := fun e => hp e.symm
        simp only [hn, hp, if_false, Memory.wf_cons]
        exact ⟨hn, by simpa using hp', h⟩

theorem Memory.wf_fill (n : Nat) (p : Pixel) : (Memory.fill n p).wf = true :=
  Memory.wf_push n p [] rfl

theorem Memory.wf_write (m : Memory) :
    ∀ (i : Nat) (p : Pixel), m.wf = true → (m.write i p).wf = true := by
  induction m with
  | nil => intro i p h; exact h
  | cons r m ih =>
    intro i p h
    have hm : Memory.wf m = true := ((Memory.wf_cons r m).1 h).2.2
    by_cases hi : i < r.count
    · simp only [Memory.write, hi, if_true]
      exact Memory.wf_push _ _ _ (Memory.wf_push _ _ _ (Memory.wf_push _ _ _ hm))
    · simp only [Memory.write, hi, if_false]
      exact Memory.wf_push _ _ _ (ih _ _ hm)

theorem State.reset_pix_wf : State.reset.pix.wf = true := rfl

/-! ## Which pixels occur -/

/-- A property of every run's pixel is a property of every entry, in a store without empty runs. -/
theorem Memory.forall_run_iff (P : Pixel → Prop) (m : Memory) (h : m.wf = true) :
    (∀ r ∈ m, P r.pixel) ↔ ∀ p ∈ m.toList, P p := by
  induction m with
  | nil => simp
  | cons r m ih =>
    rw [Memory.wf_cons] at h
    simp only [List.mem_cons, forall_eq_or_imp, Memory.toList_cons, List.mem_append,
      List.mem_replicate, ih h.2.2]
    constructor
    · rintro ⟨h1, h2⟩ p (⟨-, rfl⟩ | hp)
      · exact h1
      · exact h2 p hp
    · intro h3
      exact ⟨h3 _ (.inl ⟨h.1, rfl⟩), fun p hp => h3 p (.inr hp)⟩

end Sys2Proof.Machine
end

