-- ==== Sys2Proof/Laws/Exec.lean ====
section
/-! SUPPORT. What each shared operation can do, and what a command can do to the state: the lemmas that
later proofs cite instead of unfolding a meaning. -/

namespace Sys2Proof.Machine

/-! ## The shared operations -/

@[simp] theorem respond_eq (st : Status) (d : RspData) (s : State) :
    respond st d s = .next (s.setResponse st d) := rfl

@[simp] theorem raiseErr_eq (st : Status) (d : RspData) (s : State) :
    raiseErr st d s = .next (s.setResponse st d) := rfl

theorem next_inj {s t : State} :
    (Host.Outcome.next s : Host.Outcome State Fault Refusal) = .next t ↔ s = t := by
  constructor
  · intro h; cases h; rfl
  · rintro rfl; rfl

/-- Setting the response to a word of the spec's numbering. -/
theorem setResponse_eq (s : State) (st : Status) (d : Nat) (h : d < 2 ^ 56) :
    s.setResponse st (zext56 d) = { s with rspq := some (rspNumber st.code.toNat d) } := by
  rw [State.setResponse, responseWord_eq st d h]

theorem withBuffer_dead (s : State) (k : Host.Outcome State Fault Refusal) (h : s.live = false) :
    withBuffer s k = raiseErr .errNoBuffer 0 s := by simp [withBuffer, h]

theorem withBuffer_live (s : State) (k : Host.Outcome State Fault Refusal) (h : s.live = true) :
    withBuffer s k = k := by simp [withBuffer, h]

theorem withCoords_dead (s : State) (x y : Half) (k : Host.Outcome State Fault Refusal)
    (h : s.live = false) : withCoords s x y k = raiseErr .errNoBuffer 0 s :=
  withBuffer_dead s _ h

theorem withCoords_out (s : State) (x y : Half) (k : Host.Outcome State Fault Refusal)
    (h : s.live = true) (ho : s.width.toNat ≤ x.toNat ∨ s.height.toNat ≤ y.toNat) :
    withCoords s x y k = raiseErr .errOutOfRange (oorDetail s x y) s := by
  have hb : (xbad s x || ybad s y) = true := by
    rw [Bool.or_eq_true, xbad_iff, ybad_iff]
    exact ho
  rw [withCoords, withBuffer_live s _ h, if_pos hb]

theorem withCoords_in (s : State) (x y : Half) (k : Host.Outcome State Fault Refusal)
    (h : s.live = true) (hx : x.toNat < s.width.toNat) (hy : y.toNat < s.height.toNat) :
    withCoords s x y k = k := by
  have hb : ¬ (xbad s x || ybad s y) = true := by
    rw [Bool.or_eq_true, xbad_iff, ybad_iff]
    omega
  rw [withCoords, withBuffer_live s _ h, if_neg hb]

/-- If the shared checks of an access answer next, one of three things holds. -/
theorem withCoords_next (s t : State) (x y : Half) (k : Host.Outcome State Fault Refusal)
    (h : withCoords s x y k = .next t) :
    (s.live = false ∧ t = s.setResponse .errNoBuffer 0) ∨
    (s.live = true ∧ (s.width.toNat ≤ x.toNat ∨ s.height.toNat ≤ y.toNat) ∧
      t = s.setResponse .errOutOfRange (oorDetail s x y)) ∨
    (s.live = true ∧ x.toNat < s.width.toNat ∧ y.toNat < s.height.toNat ∧ k = .next t) := by
  cases hl : s.live with
  | false =>
    rw [withCoords_dead s x y k hl, raiseErr_eq, next_inj] at h
    exact .inl ⟨rfl, h.symm⟩
  | true =>
    by_cases ho : s.width.toNat ≤ x.toNat ∨ s.height.toNat ≤ y.toNat
    · rw [withCoords_out s x y k hl ho, raiseErr_eq, next_inj] at h
      exact .inr (.inl ⟨rfl, ho, h.symm⟩)
    · rw [not_or, not_le, not_le] at ho
      rw [withCoords_in s x y k hl ho.1 ho.2] at h
      exact .inr (.inr ⟨rfl, ho.1, ho.2, h⟩)

theorem withPixel_some (s : State) (x y : Half) (k : Pixel → Host.Outcome State Fault Refusal)
    (p : Pixel) (h : s.pix.read (pixelIndex s x y) = some p) : withPixel s x y k = k p := by
  simp [withPixel, h]

/-- If an access to an entry answers next, the entry exists. -/
theorem withPixel_next (s t : State) (x y : Half) (k : Pixel → Host.Outcome State Fault Refusal)
    (h : withPixel s x y k = .next t) :
    ∃ p, s.pix.read (pixelIndex s x y) = some p ∧ k p = .next t := by
  cases hr : s.pix.read (pixelIndex s x y) with
  | none => simp [withPixel, hr] at h
  | some p => exact ⟨p, rfl, by simpa [withPixel, hr] using h⟩

/-- In a buffer with all its entries, the entry at coordinates in bounds exists and is legal. -/
theorem BufferInv.read_in {s : State} (hb : BufferInv s) (hl : s.live = true) {x y : Half}
    (hx : x.toNat < s.width.toNat) (hy : y.toNat < s.height.toNat) :
    ∃ p, s.pix.read (pixelIndex s x y) = some p ∧ PixelLegal s.enc p := by
  have hi : pixelIndex s x y < s.pix.size := by
    rw [hb.size hl]
    exact idx_lt hx hy
  obtain ⟨p, hp⟩ := Option.isSome_iff_exists.1 ((Memory.read_isSome _ _).2 hi)
  refine ⟨p, hp, (Memory.forall_run_iff (PixelLegal s.enc) s.pix hb.canonical).1 hb.entries p ?_⟩
  rw [Memory.read_eq_toList] at hp
  exact List.mem_of_getElem? hp

theorem oorDetail_eq (s : State) (x y : Half) :
    oorDetail s x y = zext56 ((if s.width.toNat ≤ x.toNat then 1 else 0) +
      (if s.height.toNat ≤ y.toNat then 2 else 0)) := by
  simp only [oorDetail, flag, xbad_iff, ybad_iff]
  by_cases h : s.height.toNat ≤ y.toNat <;> simp [h]

theorem argDetail_eq (w h : Half) :
    argDetail w h = zext56 ((if w = 0 then 1 else 0) + (if h = 0 then 2 else 0)) := by
  simp only [argDetail, flag, beq_iff_eq]
  by_cases hh : h = 0 <;> simp [hh]

/-! ## Each meaning, if it answers next -/

theorem execCreate_next (c : BitVec 3) (w h v0 v1 v2 : Half) (s t : State)
    (he : execCreate c w h v0 v1 v2 s = .next t) :
    (∃ st d, st ≠ .ok ∧ t = s.setResponse st d) ∨
    (∃ e, c = e.code ∧ w ≠ 0 ∧ h ≠ 0 ∧ PixelLegal e ⟨v0, v1, v2⟩ ∧
      w.toNat * h.toNat ≤ s.cfg.pixCapacity ∧
      t = (s.newBuffer e w h ⟨v0, v1, v2⟩).setResponse .ok 0) := by
  unfold execCreate at he
  cases hc : Enc.ofCode? c with
  | none =>
    simp only [hc, raiseErr_eq, next_inj] at he
    exact .inl ⟨_, _, by decide, he.symm⟩
  | some e =>
    simp only [hc] at he
    split at he
    · exact .inl ⟨_, _, by decide, (next_inj.1 he).symm⟩
    · rename_i hz
      split at he
      · exact .inl ⟨_, _, by decide, (next_inj.1 he).symm⟩
      · rename_i hv
        split at he
        · exact .inl ⟨_, _, by decide, (next_inj.1 he).symm⟩
        · rename_i hcap
          simp only [Bool.or_eq_true, beq_iff_eq, not_or] at hz
          simp only [Bool.not_eq_true', Bool.not_eq_false, valueOK_iff] at hv
          exact .inr ⟨e, (Enc.ofCode?_eq_some c e).1 hc, hz.1, hz.2, hv, by omega,
            (next_inj.1 he).symm⟩

theorem execGet_next (x y : Half) (s t : State) (he : execGet x y s = .next t) :
    ∃ st d, t = s.setResponse st d := by
  rcases withCoords_next s t x y _ he with ⟨-, h⟩ | ⟨-, -, h⟩ | ⟨-, -, -, h⟩
  · exact ⟨_, _, h⟩
  · exact ⟨_, _, h⟩
  · obtain ⟨p, -, hp⟩ := withPixel_next s t x y _ h
    exact ⟨_, _, (next_inj.1 hp).symm⟩

theorem execGetch_next (x y : Half) (ch : BitVec 4) (s t : State)
    (he : execGetch x y ch s = .next t) : ∃ st d, t = s.setResponse st d := by
  rcases withCoords_next s t x y _ he with ⟨-, h⟩ | ⟨-, -, h⟩ | ⟨-, -, -, h⟩
  · exact ⟨_, _, h⟩
  · exact ⟨_, _, h⟩
  · cases hc : channel? s.enc ch with
    | none =>
      simp only [hc, raiseErr_eq, next_inj] at h
      exact ⟨_, _, h.symm⟩
    | some c =>
      simp only [hc] at h
      obtain ⟨p, -, hp⟩ := withPixel_next s t x y _ h
      exact ⟨_, _, (next_inj.1 hp).symm⟩

theorem execSet_next (x y v0 v1 v2 : Half) (s t : State) (he : execSet x y v0 v1 v2 s = .next t) :
    (∃ st d, st ≠ .ok ∧ t = s.setResponse st d) ∨
    (s.live = true ∧ x.toNat < s.width.toNat ∧ y.toNat < s.height.toNat ∧
      PixelLegal s.enc ⟨v0, v1, v2⟩ ∧
      (∃ q, s.pix.read (pixelIndex s x y) = some q) ∧
      t = (s.storePixel (pixelIndex s x y) ⟨v0, v1, v2⟩).setResponse .ok 0) := by
  rcases withCoords_next s t x y _ he with ⟨-, h⟩ | ⟨-, -, h⟩ | ⟨hl, hx, hy, h⟩
  · exact .inl ⟨_, _, by decide, h⟩
  · exact .inl ⟨_, _, by decide, h⟩
  · split at h
    · rename_i hv
      obtain ⟨q, hq, hk⟩ := withPixel_next s t x y _ h
      exact .inr ⟨hl, hx, hy, (valueOK_iff _ _).1 hv, ⟨q, hq⟩, (next_inj.1 hk).symm⟩
    · exact .inl ⟨_, _, by decide, (next_inj.1 h).symm⟩

theorem execSetch_next (x y : Half) (ch : BitVec 4) (v : Half) (s t : State)
    (he : execSetch x y ch v s = .next t) :
    (∃ st d, st ≠ .ok ∧ t = s.setResponse st d) ∨
    (s.live = true ∧ x.toNat < s.width.toNat ∧ y.toNat < s.height.toNat ∧
      ∃ c q, channel? s.enc ch = some c ∧ v.toNat ≤ s.enc.chanMax ∧
        s.pix.read (pixelIndex s x y) = some q ∧
        t = (s.storePixel (pixelIndex s x y) (q.withChan c v)).setResponse .ok 0) := by
  rcases withCoords_next s t x y _ he with ⟨-, h⟩ | ⟨-, -, h⟩ | ⟨hl, hx, hy, h⟩
  · exact .inl ⟨_, _, by decide, h⟩
  · exact .inl ⟨_, _, by decide, h⟩
  · cases hc : channel? s.enc ch with
    | none =>
      simp only [hc, raiseErr_eq, next_inj] at h
      exact .inl ⟨_, _, by decide, h.symm⟩
    | some c =>
      simp only [hc] at h
      split at h
      · rename_i hv
        obtain ⟨q, hq, hk⟩ := withPixel_next s t x y _ h
        exact .inr ⟨hl, hx, hy, c, q, rfl, by simpa [chanOK] using hv, hq, (next_inj.1 hk).symm⟩
      · exact .inl ⟨_, _, by decide, (next_inj.1 h).symm⟩

theorem serialize_next (m : Mode) (s t : State) (he : serialize m s = .next t) :
    (s.live = false ∧ t = s.setResponse .errNoBuffer 0) ∨
    (s.live = true ∧ storeComplete s = true ∧ t = s.beginStream (streamOf m s)) := by
  cases hl : s.live with
  | false =>
    rw [serialize, withBuffer_dead s _ hl, raiseErr_eq, next_inj] at he
    exact .inl ⟨rfl, he.symm⟩
  | true =>
    rw [serialize, withBuffer_live s _ hl] at he
    split at he
    · rename_i hc
      exact .inr ⟨rfl, hc, (next_inj.1 he).symm⟩
    · cases he

/-- Everything a command can do, if it answers next: respond; or write one entry with a legal pixel and
respond; or make a new buffer and respond; or start a stream. -/
theorem exec_next (i : Instr) (s t : State) (he : exec i s = .next t) :
    (∃ st d, t = s.setResponse st d) ∨
    (s.live = true ∧ ∃ k p q, s.pix.read k = some q ∧
      (PixelLegal s.enc q → PixelLegal s.enc p) ∧ t = (s.storePixel k p).setResponse .ok 0) ∨
    (∃ e w h p, w ≠ 0 ∧ h ≠ 0 ∧ PixelLegal e p ∧ w.toNat * h.toNat ≤ s.cfg.pixCapacity ∧
      t = (s.newBuffer e w h p).setResponse .ok 0) ∨
    (s.live = true ∧ ∃ m, t = s.beginStream (streamOf m s)) := by
  cases i with
  | create c w h v0 v1 v2 =>
    rcases execCreate_next c w h v0 v1 v2 s t he with
      ⟨st, d, -, ht⟩ | ⟨e, -, hw, hh, hv, hc, ht⟩
    · exact .inl ⟨st, d, ht⟩
    · exact .inr (.inr (.inl ⟨e, w, h, _, hw, hh, hv, hc, ht⟩))
  | get x y => exact .inl (execGet_next x y s t he)
  | set x y v0 v1 v2 =>
    rcases execSet_next x y v0 v1 v2 s t he with ⟨st, d, -, ht⟩ | ⟨hl, -, -, hv, ⟨q, hq⟩, ht⟩
    · exact .inl ⟨st, d, ht⟩
    · exact .inr (.inl ⟨hl, _, _, q, hq, fun _ => hv, ht⟩)
  | getch x y ch => exact .inl (execGetch_next x y ch s t he)
  | setch x y ch v =>
    rcases execSetch_next x y ch v s t he with
      ⟨st, d, -, ht⟩ | ⟨hl, -, -, c, q, hc, hv, hq, ht⟩
    · exact .inl ⟨st, d, ht⟩
    · exact .inr (.inl ⟨hl, _, _, q, hq,
        fun hp => hp.withChan ((channel?_eq_some _ _ _).1 hc).2 hv, ht⟩)
  | info => exact .inl ⟨_, _, (next_inj.1 he).symm⟩
  | sert =>
    rcases serialize_next .text s t he with ⟨-, ht⟩ | ⟨hl, -, ht⟩
    · exact .inl ⟨_, _, ht⟩
    · exact .inr (.inr (.inr ⟨hl, _, ht⟩))
  | serb =>
    rcases serialize_next .binary s t he with ⟨-, ht⟩ | ⟨hl, -, ht⟩
    · exact .inl ⟨_, _, ht⟩
    · exact .inr (.inr (.inr ⟨hl, _, ht⟩))

/-- The same of a word, legal or not. -/
theorem perform_next (w : CmdWord) (s t : State) (h : perform w s = .next t) :
    (∃ i, decode w = .ok i ∧ exec i s = .next t) ∨
    (∃ r, decode w = .error r ∧ t = s.setResponse .errIllegal 0) := by
  unfold perform at h
  split at h
  · rename_i i hd
    exact .inl ⟨i, hd, h⟩
  · rename_i r hd
    exact .inr ⟨r, hd, (next_inj.1 h).symm⟩

end Sys2Proof.Machine
end

