-- ==== Sys2Proof/Laws/Invariant.lean ====
section
/-! SUPPORT. The buffer invariant under each update of the state, and why no command stops in a state
that meets it. -/

namespace Sys2Proof.Machine

/-- The buffer invariant speaks of these six fields alone. -/
theorem BufferInv.congr {s t : State} (h : BufferInv s) (h1 : t.live = s.live)
    (h2 : t.enc = s.enc) (h3 : t.width = s.width) (h4 : t.height = s.height) (h5 : t.pix = s.pix)
    (h6 : t.cfg = s.cfg) : BufferInv t where
  capacity := by rw [h6]; exact h.capacity
  canonical := by rw [h5]; exact h.canonical
  dead := by rw [h1, h2, h3, h4, h5]; exact h.dead
  dims := by rw [h1, h3, h4, h6]; exact h.dims
  size := by rw [h1, h3, h4, h5]; exact h.size
  entries := by rw [h2, h5]; exact h.entries

theorem BufferInv.setResponse {s : State} (h : BufferInv s) (st : Status) (d : RspData) :
    BufferInv (s.setResponse st d) := h.congr rfl rfl rfl rfl rfl rfl

theorem BufferInv.beginStream {s : State} (h : BufferInv s) (bs : List Byte) :
    BufferInv (s.beginStream bs) := h.congr rfl rfl rfl rfl rfl rfl

theorem BufferInv.storePixel {s : State} (h : BufferInv s) (hl : s.live = true) (k : Nat)
    {p : Pixel} (hp : PixelLegal s.enc p) : BufferInv (s.storePixel k p) where
  capacity := h.capacity
  canonical := Memory.wf_write _ _ _ h.canonical
  dead := fun hd => absurd (hl.symm.trans hd) (by decide)
  dims := h.dims
  size := fun hl => (Memory.size_write _ _ _).trans (h.size hl)
  entries := by
    refine (Memory.forall_run_iff _ _ (Memory.wf_write _ _ _ h.canonical)).2 fun q hq => ?_
    rw [Memory.toList_write] at hq
    rcases List.mem_or_eq_of_mem_set hq with hq | rfl
    · exact (Memory.forall_run_iff _ _ h.canonical).1 h.entries q hq
    · exact hp

theorem BufferInv.newBuffer {s : State} (h : BufferInv s) {e : Enc} {w ht : Half} {p : Pixel}
    (hw : w ≠ 0) (hh : ht ≠ 0) (hp : PixelLegal e p)
    (hc : w.toNat * ht.toNat ≤ s.cfg.pixCapacity) : BufferInv (s.newBuffer e w ht p) where
  capacity := h.capacity
  canonical := Memory.wf_fill _ _
  dead := fun hd => absurd hd (by simp)
  dims := fun _ => ⟨(BitVec.pos_iff_ne_zero w).2 hw, (BitVec.pos_iff_ne_zero ht).2 hh, hc⟩
  size := fun _ => Memory.size_fill _ _
  entries := by
    refine (Memory.forall_run_iff _ _ (Memory.wf_fill _ _)).2 fun q hq => ?_
    rw [Memory.toList_fill] at hq
    rw [List.eq_of_mem_replicate hq]
    exact hp

theorem BufferInv.resetBlock {s : State} (h : 1 ≤ s.cfg.pixCapacity) : BufferInv s.resetBlock where
  capacity := h
  canonical := rfl
  dead := fun _ => ⟨rfl, rfl, rfl, rfl⟩
  dims := fun hl => absurd hl (by simp)
  size := fun hl => absurd hl (by simp)
  entries := fun r hr => absurd hr (by simp)

theorem BufferInv.storeComplete {s : State} (h : BufferInv s) (hl : s.live = true) :
    storeComplete s = true := by
  simp [Machine.storeComplete, pixelCount, h.size hl]

/-- The write of a legal pixel over a legal one keeps the invariant. -/
theorem BufferInv.overwrite {s : State} (h : BufferInv s) (hl : s.live = true) {k : Nat}
    {p q : Pixel} (hq : s.pix.read k = some q) (hp : PixelLegal s.enc q → PixelLegal s.enc p) :
    BufferInv (s.storePixel k p) := by
  refine h.storePixel hl k (hp ?_)
  rw [Memory.read_eq_toList] at hq
  exact (Memory.forall_run_iff _ _ h.canonical).1 h.entries q (List.mem_of_getElem? hq)

theorem BufferInv.exec {s t : State} (h : BufferInv s) (i : Instr) (he : exec i s = .next t) :
    BufferInv t := by
  rcases exec_next i s t he with ⟨st, d, rfl⟩ | ⟨hl, k, p, q, hq, hp, rfl⟩ |
    ⟨e, w, ht, p, hw, hh, hp, hc, rfl⟩ | ⟨-, m, rfl⟩
  · exact h.setResponse st d
  · exact (h.overwrite hl hq hp).setResponse _ _
  · exact (h.newBuffer hw hh hp hc).setResponse _ _
  · exact h.beginStream _

theorem BufferInv.perform {s t : State} (h : BufferInv s) (w : CmdWord)
    (hp : perform w s = .next t) : BufferInv t := by
  rcases perform_next w s t hp with ⟨i, -, hi⟩ | ⟨r, -, rfl⟩
  · exact h.exec i hi
  · exact h.setResponse _ _

/-! ## No command stops -/

theorem withCoords_total {s : State} (x y : Half) (k : Host.Outcome State Fault Refusal)
    (hk : s.live = true → x.toNat < s.width.toNat → y.toNat < s.height.toNat → ∃ t, k = .next t) :
    ∃ t, withCoords s x y k = .next t := by
  cases hl : s.live with
  | false => exact ⟨_, withCoords_dead s x y k hl⟩
  | true =>
    by_cases ho : s.width.toNat ≤ x.toNat ∨ s.height.toNat ≤ y.toNat
    · exact ⟨_, withCoords_out s x y k hl ho⟩
    · rw [not_or, not_le, not_le] at ho
      obtain ⟨t, ht⟩ := hk hl ho.1 ho.2
      exact ⟨t, (withCoords_in s x y k hl ho.1 ho.2).trans ht⟩

theorem BufferInv.exec_total {s : State} (h : BufferInv s) (i : Instr) :
    ∃ t, Machine.exec i s = .next t := by
  cases i with
  | create c w ht v0 v1 v2 =>
    simp only [Machine.exec, execCreate]
    split
    · exact ⟨_, rfl⟩
    · split_ifs <;> exact ⟨_, rfl⟩
  | get x y =>
    refine withCoords_total x y _ fun hl hx hy => ?_
    obtain ⟨p, hp, -⟩ := h.read_in hl hx hy
    exact ⟨_, withPixel_some s x y _ p hp⟩
  | set x y v0 v1 v2 =>
    refine withCoords_total x y _ fun hl hx hy => ?_
    obtain ⟨p, hp, -⟩ := h.read_in hl hx hy
    split
    · exact ⟨_, withPixel_some s x y _ p hp⟩
    · exact ⟨_, rfl⟩
  | getch x y ch =>
    refine withCoords_total x y _ fun hl hx hy => ?_
    obtain ⟨p, hp, -⟩ := h.read_in hl hx hy
    split
    · exact ⟨_, rfl⟩
    · exact ⟨_, withPixel_some s x y _ p hp⟩
  | setch x y ch v =>
    refine withCoords_total x y _ fun hl hx hy => ?_
    obtain ⟨p, hp, -⟩ := h.read_in hl hx hy
    split
    · exact ⟨_, rfl⟩
    · split
      · exact ⟨_, withPixel_some s x y _ p hp⟩
      · exact ⟨_, rfl⟩
  | info => exact ⟨_, rfl⟩
  | sert =>
    simp only [Machine.exec, execSert, serialize]
    cases hl : s.live with
    | false => exact ⟨_, withBuffer_dead s _ hl⟩
    | true => exact ⟨_, by rw [withBuffer_live s _ hl, if_pos (h.storeComplete hl)]⟩
  | serb =>
    simp only [Machine.exec, execSerb, serialize]
    cases hl : s.live with
    | false => exact ⟨_, withBuffer_dead s _ hl⟩
    | true => exact ⟨_, by rw [withBuffer_live s _ hl, if_pos (h.storeComplete hl)]⟩

theorem BufferInv.perform_total {s : State} (h : BufferInv s) (w : CmdWord) :
    ∃ t, Machine.perform w s = .next t := by
  unfold Machine.perform
  split
  · exact h.exec_total _
  · exact ⟨_, rfl⟩

end Sys2Proof.Machine
end

