-- ==== Sys2Proof/Laws/Step.lean ====
section
/-! SUPPORT. What a step can do, and runs of several steps. -/

namespace Sys2Proof.Machine

theorem step_reset (s : State) (h : s.tick.rst = true) : step s = .next s.advance.resetBlock := by
  simp [step, transition, h]

/-- Accept (10_state R38). -/
theorem step_accept (s : State) (w : CmdWord) (hr : s.tick.rst = false) (hb : s.busy = false)
    (hw : s.presented = some w) : step s = perform w s.advance.takeCommand := by
  simp [step, transition, State.cmdTransfer, State.cmdReady, hr, hb, hw]

theorem cmdTransfer_eq_none (s : State) (h : s.busy = true ∨ s.presented = none) :
    s.cmdTransfer = none := by
  rcases h with h | h <;> simp [State.cmdTransfer, State.cmdReady, h]

/-- SendByte (10_state R38). -/
theorem step_sendByte (s : State) (b : Byte) (rest : List Byte) (hr : s.tick.rst = false)
    (hn : s.busy = true ∨ s.presented = none) (ho : s.outq = b :: rest)
    (hs : s.tick.outReady = true) : step s = .next (s.advance.sendByte ⟨b, rest.isEmpty⟩) := by
  simp [step, transition, cmdTransfer_eq_none s hn, State.outTransfer, State.outPort, hr, ho, hs]

/-- SendRsp (10_state R38). -/
theorem step_sendRsp (s : State) (r : RspWord) (hr : s.tick.rst = false)
    (hn : s.busy = true ∨ s.presented = none) (ho : s.outq = [] ∨ s.tick.outReady = false)
    (hq : s.rspq = some r) (hs : s.tick.rspReady = true) :
    step s = .next (s.advance.sendRsp r) := by
  have h1 : s.outTransfer = none := by
    rcases ho with h | h <;> simp [State.outTransfer, State.outPort, h]
  simp [step, transition, cmdTransfer_eq_none s hn, h1, State.rspTransfer, State.rspPort, hr, hq, hs]

/-- No transition is enabled: the block waits. -/
theorem step_wait (s : State) (hr : s.tick.rst = false)
    (hn : s.busy = true ∨ s.presented = none) (ho : s.outq = [] ∨ s.tick.outReady = false)
    (hq : s.rspq = none ∨ s.tick.rspReady = false) : step s = .next s.advance := by
  have h1 : s.outTransfer = none := by
    rcases ho with h | h <;> simp [State.outTransfer, State.outPort, h]
  have h2 : s.rspTransfer = none := by
    rcases hq with h | h <;> simp [State.rspTransfer, State.rspPort, h]
  simp [step, transition, cmdTransfer_eq_none s hn, h1, h2, hr]

/-- Everything a step can do. -/
theorem step_cases (s : State) :
    (s.tick.rst = true ∧ step s = .next s.advance.resetBlock) ∨
    (s.tick.rst = false ∧ ∃ w, s.busy = false ∧ s.presented = some w ∧ s.cmdTransfer = some w ∧
      step s = perform w s.advance.takeCommand) ∨
    (s.tick.rst = false ∧ s.cmdTransfer = none ∧ ∃ b rest, s.outq = b :: rest ∧
      s.tick.outReady = true ∧ step s = .next (s.advance.sendByte ⟨b, rest.isEmpty⟩)) ∨
    (s.tick.rst = false ∧ s.cmdTransfer = none ∧ ∃ r, s.rspq = some r ∧ s.tick.rspReady = true ∧
      (s.outq = [] ∨ s.tick.outReady = false) ∧ step s = .next (s.advance.sendRsp r)) ∨
    (s.tick.rst = false ∧ s.cmdTransfer = none ∧ step s = .next s.advance) := by
  cases hr : s.tick.rst with
  | true => exact .inl ⟨rfl, step_reset s hr⟩
  | false =>
    right
    by_cases hn : s.busy = true ∨ s.presented = none
    · have hc := cmdTransfer_eq_none s hn
      right
      by_cases ho : s.outq = [] ∨ s.tick.outReady = false
      · right
        by_cases hq : s.rspq = none ∨ s.tick.rspReady = false
        · exact .inr ⟨rfl, hc, step_wait s hr hn ho hq⟩
        · rw [not_or] at hq
          obtain ⟨r, hr'⟩ := Option.ne_none_iff_exists'.1 hq.1
          have hready : s.tick.rspReady = true := by simpa using hq.2
          exact .inl ⟨rfl, hc, r, hr', hready, ho, step_sendRsp s r hr hn ho hr' hready⟩
      · rw [not_or] at ho
        obtain ⟨b, rest, hb⟩ := List.exists_cons_of_ne_nil ho.1
        have hready : s.tick.outReady = true := by simpa using ho.2
        exact .inl ⟨rfl, hc, b, rest, hb, hready, step_sendByte s b rest hr hn hb hready⟩
    · rw [not_or] at hn
      obtain ⟨w, hw⟩ := Option.ne_none_iff_exists'.1 hn.2
      have hb : s.busy = false := by simpa using hn.1
      refine .inl ⟨rfl, w, hb, hw, ?_, step_accept s w hr hb hw⟩
      simp [State.cmdTransfer, State.cmdReady, hr, hb, hw]

/-! ## The output levels -/

theorem rspValid_iff (s : State) :
    s.rspValid = true ↔ s.tick.rst = false ∧ s.rspq.isSome = true := by
  cases hr : s.tick.rst <;> simp [State.rspValid, State.rspPort, hr]

theorem outValid_iff (s : State) : s.outValid = true ↔ s.tick.rst = false ∧ s.outq ≠ [] := by
  cases hr : s.tick.rst <;> cases ho : s.outq <;> simp [State.outValid, State.outPort, hr, ho]

theorem outLast_iff (s : State) : s.outLast = true ↔ s.tick.rst = false ∧ s.outq.length = 1 := by
  cases hr : s.tick.rst <;> cases ho : s.outq <;> simp [State.outLast, State.outPort, hr, ho]

/-- A presented byte is marked exactly when `out_last` is 1. -/
theorem outPort_last {s : State} {t : OutTransfer} (h : s.outPort = some t) : t.last = s.outLast := by
  simp [State.outLast, h]

/-! ## Runs -/

@[simp] theorem run_zero (s : State) : run 0 s = .next s := rfl

theorem run_succ_next (n : Nat) {s t : State} (h : step s = .next t) : run (n + 1) s = run n t := by
  have h' : Sys2Proof.core.step s = .next t := h
  simp only [run, Host.Core.run, h']
  rfl

theorem run_succ_inv (n : Nat) {s t : State} (h : run (n + 1) s = .next t) :
    ∃ u, step s = .next u ∧ run n u = .next t := by
  cases hs : step s with
  | next u => exact ⟨u, rfl, by rw [← h, run_succ_next n hs]⟩
  | fault r =>
    have h' : Sys2Proof.core.step s = .fault r := hs
    simp [run, Host.Core.run, h'] at h
  | refused r =>
    have h' : Sys2Proof.core.step s = .refused r := hs
    simp [run, Host.Core.run, h'] at h

theorem run_add (n : Nat) : ∀ (m : Nat) (s t : State), run n s = .next t → run (n + m) s = run m t := by
  induction n with
  | zero =>
    intro m s t h
    rw [run_zero, next_inj] at h
    rw [h, Nat.zero_add]
  | succ n ih =>
    intro m s t h
    obtain ⟨u, hu, hr⟩ := run_succ_inv n h
    rw [Nat.succ_add, run_succ_next (n + m) hu]
    exact ih m u t hr

/-- What every step keeps, every run keeps. -/
theorem run_keeps (P : State → Prop) (hP : ∀ s t, P s → step s = .next t → P t) (n : Nat) :
    ∀ s t, P s → run n s = .next t → P t := by
  induction n with
  | zero =>
    intro s t hs h
    rw [run_zero, next_inj] at h
    exact h ▸ hs
  | succ n ih =>
    intro s t hs h
    obtain ⟨u, hu, hr⟩ := run_succ_inv n h
    exact ih u t (hP s u hs hu) hr

/-- If every step from a state with `P` answers next and keeps `P`, every run does. -/
theorem run_total (P : State → Prop) (hP : ∀ s, P s → ∃ t, step s = .next t ∧ P t) (n : Nat) :
    ∀ s, P s → ∃ t, run n s = .next t ∧ P t := by
  induction n with
  | zero => intro s hs; exact ⟨s, rfl, hs⟩
  | succ n ih =>
    intro s hs
    obtain ⟨u, hu, hPu⟩ := hP s hs
    obtain ⟨t, ht, hPt⟩ := ih u hPu
    exact ⟨t, (run_succ_next n hu).trans ht, hPt⟩

end Sys2Proof.Machine
end

