-- ==== Sys2Proof/Laws/Ports.lean ====
section
/-! SUPPORT. What performing a word leaves of the environment's side of the ports, and the transfers
that send a list of bytes. -/

namespace Sys2Proof.Machine

theorem tick_of_nil (s : State) (h : s.ticks = []) : s.tick = Tick.go := by
  rw [State.tick, h]
  rfl

/-- A presented word is the head of the host's list. -/
theorem cmdq_of_presented {s : State} {w : CmdWord} (h : s.presented = some w) :
    s.cmdq = w :: s.cmdq.tail := by
  unfold State.presented at h
  split at h
  · cases hq : s.cmdq with
    | nil =>
      rw [hq] at h
      cases h
    | cons a l =>
      rw [hq] at h
      cases h
      rfl
  · cases h

/-- Performing a word touches no field of the environment's side, nor BUSY, nor the parameter. -/
theorem perform_environment {s t : State} {w : CmdWord} (h : perform w s = .next t) :
    t.cmdq = s.cmdq ∧ t.ticks = s.ticks ∧ t.hostGot = s.hostGot ∧ t.sinkGot = s.sinkGot ∧
      t.busy = s.busy ∧ t.cfg = s.cfg := by
  rcases perform_next w s t h with ⟨i, -, hi⟩ | ⟨r, -, rfl⟩
  · rcases exec_next i s t hi with ⟨st, d, rfl⟩ | ⟨-, k, p, q, -, -, rfl⟩ |
      ⟨e, w, ht, p, -, -, -, -, rfl⟩ | ⟨-, m, rfl⟩ <;> exact ⟨rfl, rfl, rfl, rfl, rfl, rfl⟩
  · exact ⟨rfl, rfl, rfl, rfl, rfl, rfl⟩

/-! ## A command reads neither BUSY nor the host's words and responses -/

/-- `f` of the state of an outcome that has one. -/
def mapNext (f : State → State) :
    Host.Outcome State Fault Refusal → Host.Outcome State Fault Refusal
  | .next t => .next (f t)
  | .fault x => .fault x
  | .refused x => .refused x

/-- The state with another BUSY and another host. -/
abbrev withPort (b : Bool) (q : List CmdWord) (g : List RspWord) (s : State) : State :=
  { s with busy := b, cmdq := q, hostGot := g }

section
variable (b : Bool) (q : List CmdWord) (g : List RspWord) (s : State)

theorem ite_map (c : Bool) {k1 k2 k1' k2' : Host.Outcome State Fault Refusal}
    (h1 : k1' = mapNext (withPort b q g) k1) (h2 : k2' = mapNext (withPort b q g) k2) :
    (if c = true then k1' else k2') = mapNext (withPort b q g) (if c = true then k1 else k2) := by
  cases c <;> assumption

theorem withBuffer_map {k k' : Host.Outcome State Fault Refusal}
    (h : k' = mapNext (withPort b q g) k) :
    withBuffer (withPort b q g s) k' = mapNext (withPort b q g) (withBuffer s k) :=
  ite_map b q g s.live h rfl

theorem withCoords_map (x y : Half) {k k' : Host.Outcome State Fault Refusal}
    (h : k' = mapNext (withPort b q g) k) :
    withCoords (withPort b q g s) x y k' = mapNext (withPort b q g) (withCoords s x y k) :=
  withBuffer_map b q g s (ite_map b q g (xbad s x || ybad s y) rfl h)

theorem withPixel_map (x y : Half) {k k' : Pixel → Host.Outcome State Fault Refusal}
    (h : ∀ p, k' p = mapNext (withPort b q g) (k p)) :
    withPixel (withPort b q g s) x y k' = mapNext (withPort b q g) (withPixel s x y k) := by
  unfold withPixel
  cases hr : s.pix.read (pixelIndex s x y) with
  | none =>
    rw [show (withPort b q g s).pix.read (pixelIndex (withPort b q g s) x y) = none from hr]
    rfl
  | some p =>
    rw [show (withPort b q g s).pix.read (pixelIndex (withPort b q g s) x y) = some p from hr]
    exact h p

theorem exec_map (i : Instr) :
    exec i (withPort b q g s) = mapNext (withPort b q g) (exec i s) := by
  cases i with
  | create c w h v0 v1 v2 =>
    simp only [exec, execCreate]
    split
    · rfl
    · refine ite_map b q g _ rfl (ite_map b q g _ rfl ?_)
      by_cases hc : s.cfg.pixCapacity < w.toNat * h.toNat
      · rw [if_pos hc, if_pos (show (withPort b q g s).cfg.pixCapacity < _ from hc)]
        rfl
      · rw [if_neg hc, if_neg (show ¬ (withPort b q g s).cfg.pixCapacity < _ from hc)]
        rfl
  | get x y => exact withCoords_map b q g s x y (withPixel_map b q g s x y fun _ => rfl)
  | set x y v0 v1 v2 =>
    exact withCoords_map b q g s x y (ite_map b q g _ (withPixel_map b q g s x y fun _ => rfl) rfl)
  | getch x y ch =>
    refine withCoords_map b q g s x y ?_
    show (match channel? s.enc ch with | none => _ | some c => _) = _
    cases channel? s.enc ch with
    | none => rfl
    | some c => exact withPixel_map b q g s x y fun _ => rfl
  | setch x y ch v =>
    refine withCoords_map b q g s x y ?_
    show (match channel? s.enc ch with | none => _ | some c => _) = _
    cases channel? s.enc ch with
    | none => rfl
    | some c => exact ite_map b q g _ (withPixel_map b q g s x y fun _ => rfl) rfl
  | info => rfl
  | sert => exact withBuffer_map b q g s (ite_map b q g _ rfl rfl)
  | serb => exact withBuffer_map b q g s (ite_map b q g _ rfl rfl)

theorem perform_map (w : CmdWord) :
    perform w (withPort b q g s) = mapNext (withPort b q g) (perform w s) := by
  unfold perform
  cases decode w with
  | ok i => exact exec_map b q g s i
  | error r => rfl

end

/-! ## The transfers of a list of bytes -/

theorem length_transfersOf (l : List Byte) : (transfersOf l).length = l.length := by
  induction l with
  | nil => rfl
  | cons b l ih => simp [transfersOf, ih]

theorem data_transfersOf (l : List Byte) : (transfersOf l).map (fun t => t.data) = l := by
  induction l with
  | nil => rfl
  | cons b l ih => simp [transfersOf, ih]

/-- Exactly the last transfer is marked. -/
theorem last_transfersOf (l : List Byte) :
    ∀ (k : Nat) (t : OutTransfer), (transfersOf l)[k]? = some t →
      (t.last = true ↔ k + 1 = l.length) := by
  induction l with
  | nil =>
    intro k t h
    simp [transfersOf] at h
  | cons b l ih =>
    intro k t h
    cases k with
    | zero =>
      simp [transfersOf] at h
      subst h
      simp
    | succ k =>
      simp [transfersOf] at h
      rw [ih k t h]
      simp

theorem drop_transfersOf (n : Nat) :
    ∀ l : List Byte, (transfersOf l).drop n = transfersOf (l.drop n) := by
  induction n with
  | zero => intro l; rfl
  | succ n ih =>
    intro l
    cases l with
    | nil => rfl
    | cons a l => simp [transfersOf, ih]

end Sys2Proof.Machine
end

