-- ==== Sys2Proof/Laws/Stream.lean ====
section
/-! SUPPORT. The stream: decimal rendering, the header, the loops over the pixels as the flat store. -/

namespace Sys2Proof.Machine

/-! ## Decimal rendering -/

/-- The digits the loop puts before `acc`, whatever `acc` is. -/
theorem decLoop_append (fuel : Nat) :
    ∀ (v : Nat) (acc : List Byte), decLoop fuel v acc = decLoop fuel v [] ++ acc := by
  induction fuel with
  | zero => intro v acc; rfl
  | succ f ih =>
    intro v acc
    by_cases hv : v = 0
    · simp [decLoop, hv]
    · simp only [decLoop, hv, if_false]
      rw [ih (v / 10) (chDigit (v % 10) :: acc), ih (v / 10) [chDigit (v % 10)], List.append_assoc]
      rfl

/-- More fuel than digits changes nothing. -/
theorem decLoop_fuel (f : Nat) :
    ∀ (g v : Nat) (acc : List Byte), v ≤ f → v ≤ g → decLoop f v acc = decLoop g v acc := by
  induction f with
  | zero =>
    intro g v acc hf _
    obtain rfl : v = 0 := by omega
    cases g <;> simp [decLoop]
  | succ f ih =>
    intro g v acc hf hg
    by_cases hv : v = 0
    · subst hv
      cases g <;> simp [decLoop]
    · obtain ⟨g, rfl⟩ : ∃ g', g = g' + 1 := ⟨g - 1, by omega⟩
      simp only [decLoop, hv, if_false]
      exact ih g (v / 10) _ (by omega) (by omega)

/-- A value of two or more digits is its leading digits and its last one. -/
theorem dec_step (v : Nat) (hv : 10 ≤ v) : dec v = dec (v / 10) ++ [chDigit (v % 10)] := by
  obtain ⟨f, rfl⟩ : ∃ f, v = f + 1 := ⟨v - 1, by omega⟩
  have h1 : (f + 1) / 10 ≠ 0 := by omega
  simp only [dec, Nat.succ_ne_zero, if_false, h1]
  rw [decLoop, if_neg (Nat.succ_ne_zero f), decLoop_append,
    decLoop_fuel f ((f + 1) / 10) _ [] (by omega) (by omega)]

theorem dec_digit (v : Nat) (hv : v < 10) : dec v = [chDigit v] := by
  unfold dec
  by_cases h0 : v = 0
  · simp [h0]
  · obtain ⟨f, rfl⟩ : ∃ f, v = f + 1 := ⟨v - 1, by omega⟩
    have h1 : (f + 1) / 10 = 0 := by omega
    have h2 : (f + 1) % 10 = f + 1 := by omega
    rw [if_neg h0, decLoop, if_neg h0, h1, h2]
    cases f <;> simp [decLoop]

/-- The number of digits grows by one with each factor of ten. -/
theorem length_dec_step (v : Nat) (hv : 10 ≤ v) : (dec v).length = (dec (v / 10)).length + 1 := by
  rw [dec_step v hv, List.length_append, List.length_singleton]

theorem length_dec_digit (v : Nat) (hv : v < 10) : (dec v).length = 1 := by
  rw [dec_digit v hv]
  rfl

/-- A 16-bit value has 1 to 5 digits, and no more than a larger one. -/
theorem length_dec_pos (v : Nat) : 1 ≤ (dec v).length := by
  by_cases hv : v < 10
  · rw [length_dec_digit v hv]
  · rw [length_dec_step v (by omega)]
    omega

theorem length_dec_mono (u : Nat) : ∀ v, v ≤ u → (dec v).length ≤ (dec u).length := by
  induction u using Nat.strong_induction_on with
  | _ u ih =>
    intro v hv
    by_cases h : v < 10
    · rw [length_dec_digit v h]
      exact length_dec_pos u
    · rw [length_dec_step v (by omega), length_dec_step u (by omega)]
      have := ih (u / 10) (by omega) (v / 10) (by omega)
      omega

/-! ## The loops over the pixels -/

/-- The row-major loops visit the flat store in order (42_serializer R157). -/
theorem flatMap_range_eq {α β : Type} (l : List α) (d : α) (f : α → List β) :
    ∀ n, n ≤ l.length →
      (List.range n).flatMap (fun i => f (l[i]?.getD d)) = (l.take n).flatMap f := by
  intro n
  induction n with
  | zero => intro _; simp
  | succ n ih =>
    intro hn
    have hlt : n < l.length := by omega
    rw [List.range_succ, List.flatMap_append, ih (by omega), List.take_add_one,
      List.flatMap_append]
    simp [List.getElem?_eq_getElem hlt]

/-- Nested loops over `h` rows of `w` are one loop over `w * h`. -/
theorem flatMap_rows {β : Type} (w : Nat) (g : Nat → List β) :
    ∀ h, (List.range h).flatMap (fun y => (List.range w).flatMap fun x => g (y * w + x)) =
      (List.range (h * w)).flatMap g := by
  intro h
  induction h with
  | zero => simp
  | succ h ih =>
    rw [List.range_succ, List.flatMap_append, ih, Nat.succ_mul, List.range_add,
      List.flatMap_append]
    simp [List.flatMap_map]

theorem rowMajor_eq (pix : Memory) (w h : Nat) (f : Pixel → List Byte) (hs : pix.size = w * h) :
    rowMajor pix w h f = pix.toList.flatMap f := by
  unfold rowMajor pixelAt idx
  rw [flatMap_rows w (fun i => f ((pix.read i).getD Pixel.zero)) h]
  have hl : pix.toList.length = h * w := by rw [Memory.length_toList, hs, Nat.mul_comm]
  simp only [Memory.read_eq_toList]
  rw [flatMap_range_eq pix.toList Pixel.zero f (h * w) (by omega), ← hl, List.take_length]

/-- The header is never empty. -/
theorem header_ne_nil (m : Mode) (e : Enc) (w h : Nat) : header m e w h ≠ [] := by
  simp [header]

theorem stream_ne_nil (m : Mode) (e : Enc) (pix : Memory) (w h : Nat) :
    stream m e pix w h ≠ [] := by
  simp [stream, header_ne_nil]

end Sys2Proof.Machine
end

