-- ==== Sys2Proof/Tests/Slice0.lean ====
section
/-! SUPPORT. The smoke test of well-formedness, decoding of words written out from the spec, one-step tests
with results from spec/95_test_vectors.md, and the witnesses of the statements' hypotheses. -/

open Sys2Proof Sys2Proof.Machine

namespace Sys2Proof.Tests

/-! ## Well-formedness: the one check, at its boundary -/

theorem test_wf_accepts_rgb16 : (Instr.create 4 0 0 0 0 0).wf = true := by decide
theorem test_wf_refuses_5 : (Instr.create 5 1 1 0 0 0).wf = false := by decide
theorem test_wf_refuses_6 : (Instr.create 6 1 1 0 0 0).wf = false := by decide
theorem test_wf_refuses_7 : (Instr.create 7 1 1 0 0 0).wf = false := by decide
theorem test_wf_accepts_any_channel : (Instr.getch 0 0 15).wf = true := by decide

/-! ## Decoding: RSV, V2, V1, V0, B, A, SEL, OP, bit by bit (30_encoding R70 to R72) -/

theorem test_decode_create :
    decode (0b00000000#8 ++ 0b0000000000010000#16 ++ 0b0000000011111111#16 ++ 0b0000000000000001#16 ++
      0b1000000000000010#16 ++ 0b0000000000000011#16 ++ 0b0011#4 ++ 0b0001#4) =
    .ok (.create 3 3 0x8002 1 255 16) := by rfl

theorem test_decode_get :
    decode (0b00000000#8 ++ 0b0000000000000000#16 ++ 0b0000000000000000#16 ++ 0b0000000000000000#16 ++
      0b0000000100000000#16 ++ 0b1000000000000010#16 ++ 0b0000#4 ++ 0b0010#4) =
    .ok (.get 0x8002 256) := by rfl

theorem test_decode_set :
    decode (0b00000000#8 ++ 0b1000000000000011#16 ++ 0b0000000000000010#16 ++ 0b0000000000000001#16 ++
      0b0000000000000101#16 ++ 0b0000000000000100#16 ++ 0b0000#4 ++ 0b0011#4) =
    .ok (.set 4 5 1 2 0x8003) := by rfl

theorem test_decode_getch :
    decode (0b00000000#8 ++ 0b0000000000000000#16 ++ 0b0000000000000000#16 ++ 0b0000000000000000#16 ++
      0b0000000000000101#16 ++ 0b0000000000000100#16 ++ 0b1010#4 ++ 0b0100#4) =
    .ok (.getch 4 5 10) := by rfl

theorem test_decode_setch :
    decode (0b00000000#8 ++ 0b0000000000000000#16 ++ 0b0000000000000000#16 ++ 0b1000000000000001#16 ++
      0b0000000000000101#16 ++ 0b0000000000000100#16 ++ 0b0010#4 ++ 0b0101#4) =
    .ok (.setch 4 5 2 0x8001) := by rfl

theorem test_decode_info :
    decode (0b00000000#8 ++ 0b0000000000000000#16 ++ 0b0000000000000000#16 ++ 0b0000000000000000#16 ++
      0b0000000000000000#16 ++ 0b0000000000000000#16 ++ 0b0000#4 ++ 0b0110#4) = .ok .info := by rfl

theorem test_decode_sert :
    decode (0b00000000#8 ++ 0b0000000000000000#16 ++ 0b0000000000000000#16 ++ 0b0000000000000000#16 ++
      0b0000000000000000#16 ++ 0b0000000000000000#16 ++ 0b0000#4 ++ 0b0111#4) = .ok .sert := by rfl

theorem test_decode_serb :
    decode (0b00000000#8 ++ 0b0000000000000000#16 ++ 0b0000000000000000#16 ++ 0b0000000000000000#16 ++
      0b0000000000000000#16 ++ 0b0000000000000000#16 ++ 0b0001#4 ++ 0b0111#4) = .ok .serb := by rfl

/-! Illegal words: vectors D1, D3, D4, D6, D7, D8, D13, D15 and D17 -/

theorem test_reject_all_zero : decode 0x0 = .error .opcodeIllegal := by rfl
theorem test_reject_op15 : decode 0xF = .error .opcodeIllegal := by rfl
theorem test_reject_enc5 : decode 0x0100_0151 = .error .encodingIllegal := by rfl
theorem test_reject_create_sel3 : decode 0x0100_0181 = .error .reservedFieldNonZero := by rfl
theorem test_reject_rsv :
    decode 0x0100_0000_0000_0000_0100_0111 = .error .rsvNonZero := by rfl
theorem test_reject_get_v0 : decode 0x0100_0000_0002 = .error .reservedFieldNonZero := by rfl
theorem test_reject_info_a : decode 0x0106 = .error .reservedFieldNonZero := by rfl
theorem test_reject_sel2 : decode 0x27 = .error .reservedFieldNonZero := by rfl
theorem test_reject_serb_v2 :
    decode 0x0080_0000_0000_0000_0000_0017 = .error .reservedFieldNonZero := by rfl

theorem test_decodeTableWord : decodeTableWord 96 0x24 = some (.getch 0 0 2) := by rfl
theorem test_decodeTableWord_short : decodeTableWord 8 0x0124 = some (.getch 0 0 2) := by rfl

/-! ## Small states -/

/-- After `CREATE gray8, 3, 2`. -/
def gray32 : State :=
  { State.reset with live := true, enc := .gray8, width := 3, height := 2, pix := [⟨6, ⟨0, 0, 0⟩⟩] }

/-- After `CREATE rgb8, 1, 1, 10, 20, 30`. -/
def rgb11 : State :=
  { State.reset with live := true, enc := .rgb8, width := 1, height := 1, pix := [⟨1, ⟨10, 20, 30⟩⟩] }

/-- After `CREATE rgb16, 1, 1, 1, 256, 65535`. -/
def deep11 : State :=
  { State.reset with
    live := true, enc := .rgb16, width := 1, height := 1, pix := [⟨1, ⟨1, 256, 65535⟩⟩] }

/-- The 10 by 1 bi-level row of the worked example W5. -/
def row10 : State :=
  { State.reset with
    live := true, enc := .bilevel, width := 10, height := 1
    pix := [⟨1, ⟨1, 0, 0⟩⟩, ⟨1, ⟨0, 0, 0⟩⟩, ⟨2, ⟨1, 0, 0⟩⟩, ⟨3, ⟨0, 0, 0⟩⟩, ⟨3, ⟨1, 0, 0⟩⟩] }

/-- What `f` sees of the state after one step that takes the word `w`. -/
def after {α : Type} (f : State → α) (s : State) (w : Nat) : Option α :=
  match step (s.withFetchWord 96 w) with
  | .next t => some (f t)
  | .fault _ => none
  | .refused _ => none

/-! ## One step of each command -/

/-- Vector B12. -/
theorem test_create_replaces :
    after (fun t => (t.rspq, t.enc, t.width, t.height, t.pix)) gray32
      0x0000_0300_0200_0100_0100_0231 =
    some (some 0, .rgb8, 2, 1, [⟨2, ⟨1, 2, 3⟩⟩]) := by decide

/-- Vector B6: a zero width wins over a bad value. -/
theorem test_create_zero_width :
    after (fun t => (t.rspq, t.live)) State.reset 0x0000_0000_0001_0000_0100_0011 =
    some (some 0x0101, false) := by decide

/-- Vector B33: the three channels of DATA. -/
theorem test_get_channels :
    after (fun t => t.rspq) rgb11 0x2 = some (some 0x1E00_1400_0A00) := by decide

/-- Vector B20: no coordinate wraps into the next row. -/
theorem test_get_no_wrap :
    after (fun t => t.rspq) gray32 0x0100_0302 = some (some 0x0102) := by decide

/-- Vector B24: the last of six entries. -/
theorem test_set_last_entry :
    after (fun t => (t.rspq, t.pix)) gray32 0xC800_0100_0203 =
    some (some 0, [⟨5, ⟨0, 0, 0⟩⟩, ⟨1, ⟨200, 0, 0⟩⟩]) := by decide

/-- Vector B27: both coordinates win over a bad value. -/
theorem test_set_out_of_range :
    after (fun t => (t.rspq, t.pix)) gray32 0x0001_0000_0200_0303 =
    some (some 0x0302, [⟨6, ⟨0, 0, 0⟩⟩]) := by decide

/-- Vector X2. -/
theorem test_getch_green :
    after (fun t => t.rspq) rgb11 0x14 = some (some 0x1400) := by decide

/-- Vector X4. -/
theorem test_getch_channel_3 :
    after (fun t => t.rspq) rgb11 0x34 = some (some 0x3) := by decide

/-- The command of vector X11, on `deep11`. -/
theorem test_setch_one_channel :
    after (fun t => (t.rspq, t.pix)) { deep11 with pix := [⟨1, ⟨1, 2, 3⟩⟩] } 0xFF_FF00_0000_0025 =
    some (some 0, [⟨1, ⟨1, 2, 65535⟩⟩]) := by decide

/-- The command of vector X15: a bad channel wins over a bad value. -/
theorem test_setch_bad_channel :
    after (fun t => (t.rspq, t.pix)) rgb11 0x1_0000_0000_0035 =
    some (some 0x3, [⟨1, ⟨10, 20, 30⟩⟩]) := by decide

/-- Vector B16. -/
theorem test_info :
    after (fun t => t.rspq) gray32 0x6 = some (some 0x0900_0200_0300) := by decide

/-- Vector B15. -/
theorem test_info_reset :
    after (fun t => t.rspq) State.reset 0x6 = some (some 0) := by decide

/-- The worked example W6 (vector S21). -/
theorem test_sert :
    after (fun t => (t.rspq, t.held, t.outq))
      { rgb11 with pix := [⟨1, ⟨0, 255, 16⟩⟩] } 0x7 =
    some (none, some 0x1400,
      [0x50, 0x33, 0x20, 0x31, 0x20, 0x31, 0x0A, 0x32, 0x35, 0x35, 0x0A, 0x30, 0x20, 0x32, 0x35, 0x35,
        0x20, 0x31, 0x36, 0x20]) := by decide

theorem test_sert_no_buffer :
    after (fun t => (t.rspq, t.outq)) State.reset 0x7 = some (some 0x4, []) := by decide

/-- The worked example W5 (program P1): bits, inversion and padding. -/
theorem test_serb_bilevel :
    after (fun t => t.outq) row10 0x17 =
    some [0x50, 0x34, 0x20, 0x31, 0x30, 0x20, 0x31, 0x0A, 0x4E, 0x3F] := by decide

/-- The worked example W8 (vector S24): the least significant byte first. -/
theorem test_serb_little_endian :
    after (fun t => (t.held, t.outq)) deep11 0x17 =
    some (some 0x1300,
      [0x50, 0x36, 0x20, 0x31, 0x20, 0x31, 0x0A, 0x36, 0x35, 0x35, 0x33, 0x35, 0x0A, 0x01, 0x00, 0x00,
        0x01, 0xFF, 0xFF]) := by decide

/-- Vector D18: an illegal word wins over the missing buffer. -/
theorem test_illegal_word :
    after (fun t => (t.rspq, t.live)) State.reset 0x0100_0000_0002 = some (some 0x5, false) := by decide

/-! ## The invariant holds of the small states -/

theorem gray32_inv : Inv gray32 :=
  ⟨⟨by decide, by decide, by decide, by decide, by decide, by decide⟩, by decide⟩

theorem rgb11_inv : Inv rgb11 :=
  ⟨⟨by decide, by decide, by decide, by decide, by decide, by decide⟩, by decide⟩

theorem deep11_inv : Inv deep11 :=
  ⟨⟨by decide, by decide, by decide, by decide, by decide, by decide⟩, by decide⟩

theorem row10_inv : Inv row10 :=
  ⟨⟨by decide, by decide, by decide, by decide, by decide, by decide⟩, by decide⟩

/-- The largest bi-level buffer (20_memory R51). -/
def largest : State :=
  { State.reset with
    live := true, enc := .bilevel, width := 65535, height := 65535
    pix := [⟨4294836225, ⟨1, 0, 0⟩⟩] }

theorem largest_inv : Inv largest :=
  ⟨⟨by decide, by decide, by decide, by decide, by decide, by decide⟩, by decide⟩

/-- The largest RGB-16 text stream (42_serializer R167). -/
def longest : State := { largest with enc := .rgb16, pix := [⟨4294836225, ⟨65535, 65535, 10000⟩⟩] }

theorem longest_inv : Inv longest :=
  ⟨⟨by decide, by decide, by decide, by decide, by decide, by decide⟩, by decide⟩

/-- Nothing is served and nothing presented. -/
def idleTick : Tick := ⟨false, false, false, false⟩
/-- `rst` is 1. -/
def rstTick : Tick := ⟨true, true, true, true⟩

/-- A response waits. -/
def responding : State := { gray32 with busy := true, rspq := some 0x0102, cmdq := [0x6] }

theorem responding_inv : Inv responding :=
  ⟨⟨by decide, by decide, by decide, by decide, by decide, by decide⟩, by decide⟩

/-- Two bytes of a serialization are left. -/
def streaming : State := { gray32 with busy := true, outq := [0x31, 0x20], held := some 0x1700 }

theorem streaming_inv : Inv streaming :=
  ⟨⟨by decide, by decide, by decide, by decide, by decide, by decide⟩, by decide⟩

/-! ## Witnesses: for each statement with hypotheses, states and operands that meet them -/

/-- `rst` is 1 with a response in RSPQ, and with the last byte of a stream in OUTQ. -/
theorem witness_ResetLeavesTheStatedValues :
    (State.tick { responding with ticks := [rstTick] }).rst = true ∧
    (State.tick { streaming with outq := [0x20], ticks := [rstTick] }).rst = true := by decide

/-- 10_state R39 and R33: `out_last` of a last byte without and with `rst`, of a byte before it, and of an
empty queue. -/
theorem test_out_last :
    State.outLast { streaming with outq := [0x20] } = true ∧
    State.outLast { streaming with outq := [0x20], ticks := [rstTick] } = false ∧
    streaming.outLast = false ∧ gray32.outLast = false := by decide

theorem witness_ResetStepWipesTheBlockAndTransfersNothing :
    State.tick { responding with cmdq := [], ticks := [rstTick] } = rstTick ∧
    after (fun t => (t.tick.rst, t.presented)) { responding with ticks := [rstTick] } 0x6 ≠ none ∧
    step { responding with cmdq := [], ticks := [rstTick] } =
      .next (State.resetBlock { responding with cmdq := [], ticks := [] }) ∧
    State.tick (State.resetBlock { responding with cmdq := [], ticks := [] }) = Tick.go ∧
    State.presented (State.resetBlock { responding with cmdq := [], ticks := [] }) = none := by
  refine ⟨by decide, by decide, rfl, by decide, by decide⟩

theorem witness_StoreContentsAfterResetAreUnobservable : 1 ≤ (Config.mk 1).pixCapacity := by decide

theorem witness_EveryStepKeepsTheInvariant :
    Inv streaming ∧ step streaming = .next (streaming.sendByte ⟨0x31, false⟩) :=
  ⟨streaming_inv, rfl⟩

theorem witness_EveryStepFromTheInvariantAnswersNext : Inv responding := responding_inv

theorem witness_EveryRunFromResetMeetsTheBufferInvariant :
    1 ≤ (Config.mk 1).pixCapacity ∧
    run 1 (State.start ⟨1⟩ [encode (.create 1 1 1 9 0 0)] []) =
      .next { State.start ⟨1⟩ [] [] with
        live := true, enc := .gray8, width := 1, height := 1, pix := [⟨1, ⟨9, 0, 0⟩⟩]
        busy := true, rspq := some 0 } :=
  ⟨by decide, rfl⟩

/-- Accept; SendByte with a byte left and with the last one; SendRsp; Reset; a wait of each kind. -/
theorem witness_TransitionsAreTheStatedOnes :
    (PhaseInv gray32 ∧ State.presented { gray32 with cmdq := [0x6] } = some 0x6) ∧
    (PhaseInv streaming ∧ streaming.outq = 0x31 :: [0x20] ∧ streaming.tick.outReady = true) ∧
    (PhaseInv { streaming with outq := [0x20] } ∧ streaming.tick.rst = false) ∧
    (PhaseInv responding ∧ responding.rspq = some 0x0102 ∧ responding.tick.rspReady = true) ∧
    (PhaseInv { responding with ticks := [rstTick] } ∧
      State.tick { responding with ticks := [rstTick] } = rstTick) ∧
    (gray32.tick.rst = false ∧ gray32.presented = none ∧ gray32.outq = [] ∧ gray32.rspq = none) ∧
    (State.tick { streaming with ticks := [idleTick] }).outReady = false ∧
    (State.tick { responding with ticks := [idleTick] }).rspReady = false :=
  ⟨⟨by decide, by decide⟩, by decide, ⟨by decide, by decide⟩, by decide, ⟨by decide, by decide⟩,
    by decide, by decide, by decide⟩

theorem witness_StepRunsTheDecodedCommand :
    State.tick { gray32 with cmdq := [0x0100_0202] } = Tick.go ∧ gray32.busy = false ∧
    State.presented { gray32 with cmdq := [0x0100_0202] } = some 0x0100_0202 ∧
    decode 0x0100_0202 = .ok (.get 2 1) :=
  ⟨by decide, by decide, by decide, rfl⟩

theorem witness_PlacedWordIsRunByTheNextStep :
    decodeTableWord 96 (0x0100_0202 : CmdWord).toNat = some (.get 2 1) := by rfl

theorem witness_NoWordIsTakenWhileBusyOrInReset :
    responding.busy = true ∧ responding.presented = some 0x6 ∧
    step responding = .next (responding.sendRsp 0x0102) ∧
    State.tick { gray32 with cmdq := [0x6], ticks := [rstTick] } = rstTick ∧
    step { gray32 with cmdq := [0x6], ticks := [rstTick] } =
      .next (State.resetBlock { gray32 with cmdq := [0x6] }) :=
  ⟨by decide, by decide, rfl, by decide, rfl⟩

/-- An empty queue, two bytes, and the last byte. -/
theorem witness_OutPortShowsTheHeadOfTheQueue :
    (gray32.tick.rst = false ∧ gray32.outq = []) ∧
    (streaming.tick.rst = false ∧ streaming.outq = 0x31 :: [0x20] ∧ PhaseInv streaming ∧
      streaming.tick.outReady = true) ∧
    (State.tick { streaming with outq := [0x20] }).rst = false ∧
    PhaseInv { streaming with outq := [0x20] } := by decide

theorem witness_BackPressureStopsTheBlock :
    (PhaseInv responding ∧ responding.busy = true ∧ responding.outq = [] ∧
      [idleTick, idleTick][1]? = some idleTick ∧ idleTick.rspReady = false) ∧
    (PhaseInv streaming ∧ streaming.busy = true ∧ streaming.outq ≠ [] ∧
      idleTick.outReady = false ∧ idleTick.rst = false) := by decide

theorem witness_EveryCommandGetsOneResponse :
    Inv { gray32 with cmdq := [0x6, 0x6] } ∧ (∀ tk ∈ [Tick.go], tk.rst = false) ∧
    run 2 { gray32 with cmdq := [0x6, 0x6], ticks := [Tick.go] } =
      .next { gray32 with cmdq := [0x6], hostGot := [0x0900_0200_0300] } :=
  ⟨⟨⟨by decide, by decide, by decide, by decide, by decide, by decide⟩, by decide⟩, by decide, rfl⟩

theorem witness_ReadyEnvironmentSeesAtomicCommandsInOrder :
    Inv { gray32 with cmdq := [0x6, 0x7] } ∧ Quiescent { gray32 with cmdq := [0x6, 0x7] } ∧
    State.ticks { gray32 with cmdq := [0x6, 0x7] } = [] :=
  ⟨⟨⟨by decide, by decide, by decide, by decide, by decide, by decide⟩, by decide⟩, by decide, rfl⟩

theorem witness_EveryResponseHasALegalStatus :
    run 2 (State.start Config.conforming [0x0] []) =
      .next { State.start Config.conforming [] [] with hostGot := [0x5] } := rfl

theorem witness_DecodeAcceptsExactlyTheLegalWords :
    legalWord 0x0100_0141 = true ∧ legalWord 0x0100_0151 = false := by decide

theorem witness_DecodeOfEncodeIsTheCommand :
    (Instr.create 4 65535 65535 65535 65535 65535).wf = true ∧ (Instr.getch 65535 65535 15).wf = true := by
  decide

theorem witness_EncodeOfDecodeIsTheWord :
    decode 0x00FF_FFFF_FFFF_FFFF_FFFF_FF41 = .ok (.create 4 65535 65535 65535 65535 65535) := by rfl

/-- Each zero dimension; a fill one above the limit and one at it; one entry too many and exactly
enough; the conforming capacity at the largest dimensions; a malformed CREATE. -/
theorem witness_CreateBuildsTheBufferOrRefuses :
    ((0 : Half) = 0 ∨ (3 : Half) = 0) ∧ ((3 : Half) = 0 ∨ (0 : Half) = 0) ∧
    ((1 : Half) ≠ 0 ∧ ¬ PixelLegal .gray8 ⟨256, 0, 0⟩ ∧ ¬ PixelLegal .gray8 ⟨0, 1, 0⟩ ∧
      ¬ PixelLegal .bilevel ⟨2, 0, 0⟩) ∧
    (PixelLegal .gray8 ⟨255, 0, 0⟩ ∧ (Config.mk 3).pixCapacity < (2 : Half).toNat * (2 : Half).toNat) ∧
    (2 : Half).toNat * (2 : Half).toNat ≤ (Config.mk 4).pixCapacity ∧
    (65535 : Half).toNat * (65535 : Half).toNat ≤ State.reset.cfg.pixCapacity ∧
    ((0x0100_0151 : CmdWord).extractLsb' 0 4 = 1 ∧ legalCreate 0x0100_0151 = false) ∧
    ((0x0100_0181 : CmdWord).extractLsb' 0 4 = 1 ∧ legalCreate 0x0100_0181 = false) := by decide

theorem witness_CreateWithAReservedSelectorIsIllegal : 4 < (5 : BitVec 3).toNat := by decide

theorem witness_CapacityErrorNeedsASmallerStore :
    (65535 : Half) ≠ 0 ∧ PixelLegal .rgb16 ⟨65535, 65535, 65535⟩ ∧
    (Config.mk 4294836224).pixCapacity < (65535 : Half).toNat * (65535 : Half).toNat ∧
    State.reset.cfg.pixCapacity = 4294836225 := by decide

/-- No buffer; the first pair out of range on each side; the last pair in range; a malformed word. -/
theorem witness_GetAnswersThePixel :
    State.reset.live = false ∧ gray32.live = true ∧
    gray32.width.toNat ≤ (3 : Half).toNat ∧ gray32.height.toNat ≤ (2 : Half).toNat ∧
    ((2 : Half).toNat < gray32.width.toNat ∧ (1 : Half).toNat < gray32.height.toNat) ∧
    (0x12 : CmdWord).extractLsb' 0 4 = 2 ∧ legalGet 0x12 = false := by decide

theorem witness_GetAnswersThePixel_inv : BufferInv gray32 := gray32_inv.buffer

theorem witness_SetWritesThePixelOrRefuses :
    State.reset.live = false ∧ gray32.live = true ∧
    gray32.width.toNat ≤ (3 : Half).toNat ∧ gray32.height.toNat ≤ (2 : Half).toNat ∧
    ((2 : Half).toNat < gray32.width.toNat ∧ (1 : Half).toNat < gray32.height.toNat) ∧
    ¬ PixelLegal gray32.enc ⟨256, 0, 0⟩ ∧ PixelLegal gray32.enc ⟨255, 0, 0⟩ ∧
    (0x13 : CmdWord).extractLsb' 0 4 = 3 ∧ legalSet 0x13 = false := by decide

theorem witness_SetWritesThePixelOrRefuses_inv : BufferInv gray32 := gray32_inv.buffer

theorem witness_InfoAnswersTheDimensions :
    State.reset.live = false ∧ (0x0106 : CmdWord).extractLsb' 0 4 = 6 ∧ legalInfo 0x0106 = false := by
  decide

theorem witness_InfoAnswersTheDimensions_inv : BufferInv State.reset :=
  ⟨by decide, by decide, by decide, by decide, by decide, by decide⟩

/-- Channel 0 and 1 of an encoding with one component, channel 2 and 3 of one with three. -/
theorem witness_GetchAnswersTheChannel :
    State.reset.live = false ∧ gray32.live = true ∧ gray32.width.toNat ≤ (3 : Half).toNat ∧
    (rgb11.live = true ∧ (0 : Half).toNat < rgb11.width.toNat ∧ (0 : Half).toNat < rgb11.height.toNat) ∧
    (2 : BitVec 4).toNat < rgb11.enc.componentCount ∧ rgb11.enc.componentCount ≤ (3 : BitVec 4).toNat ∧
    (0 : BitVec 4).toNat < gray32.enc.componentCount ∧ gray32.enc.componentCount ≤ (1 : BitVec 4).toNat ∧
    (0x0100_0000_0004 : CmdWord).extractLsb' 0 4 = 4 ∧ legalGetch 0x0100_0000_0004 = false := by decide

theorem witness_GetchAnswersTheChannel_inv : BufferInv rgb11 := rgb11_inv.buffer

theorem witness_SetchWritesTheChannelOrRefuses :
    State.reset.live = false ∧ gray32.live = true ∧ gray32.width.toNat ≤ (3 : Half).toNat ∧
    (rgb11.live = true ∧ (0 : Half).toNat < rgb11.width.toNat ∧ (0 : Half).toNat < rgb11.height.toNat) ∧
    (2 : BitVec 4).toNat < rgb11.enc.componentCount ∧ rgb11.enc.componentCount ≤ (3 : BitVec 4).toNat ∧
    (255 : Half).toNat ≤ rgb11.enc.chanMax ∧ rgb11.enc.chanMax < (256 : Half).toNat ∧
    (0x0100_0000_0000_0005 : CmdWord).extractLsb' 0 4 = 5 ∧
    legalSetch 0x0100_0000_0000_0005 = false := by decide

theorem witness_SetchWritesTheChannelOrRefuses_inv : BufferInv rgb11 := rgb11_inv.buffer

theorem witness_SerializeNeverFailsForALiveBuffer :
    State.reset.live = false ∧ rgb11.live = true ∧
    (0x27 : CmdWord).extractLsb' 0 4 = 7 ∧ legalSerialize 0x27 = false := by decide

theorem witness_SerializeNeverFailsForALiveBuffer_inv : BufferInv rgb11 := rgb11_inv.buffer

/-- A store one entry short. -/
theorem witness_MissingEntryStopsTheAccess :
    gray32.live = true ∧ (2 : Half).toNat < gray32.width.toNat ∧ (1 : Half).toNat < gray32.height.toNat ∧
    Memory.size [⟨5, ⟨0, 0, 0⟩⟩] ≤ (1 : Half).toNat * gray32.width.toNat + (2 : Half).toNat ∧
    PixelLegal gray32.enc ⟨255, 0, 0⟩ := by decide

theorem witness_ReadingCommandsWriteOnlyBookkeeping :
    exec (.get 2 1) gray32 = .next { gray32 with rspq := some 0 } ∧
    exec (.getch 0 0 2) rgb11 = .next { rgb11 with rspq := some 0x1E00 } ∧
    exec .info gray32 = .next { gray32 with rspq := some 0x0900_0200_0300 } ∧
    exec .sert rgb11 = .next (rgb11.beginStream (streamOf .text rgb11)) ∧
    exec .serb rgb11 = .next (rgb11.beginStream (streamOf .binary rgb11)) :=
  ⟨rfl, rfl, rfl, rfl, rfl⟩

theorem witness_PixelWritesChangeOnlyTheNamedEntry :
    exec (.set 2 1 200 0 0) gray32 =
      .next { gray32 with pix := [⟨5, ⟨0, 0, 0⟩⟩, ⟨1, ⟨200, 0, 0⟩⟩], rspq := some 0 } ∧
    exec (.setch 0 0 2 255) rgb11 =
      .next { rgb11 with pix := [⟨1, ⟨10, 20, 255⟩⟩], rspq := some 0 } :=
  ⟨rfl, rfl⟩

theorem witness_CreateChangesOnlyTheBuffer :
    exec (.create 0 10 1 0 0 0) gray32 =
      .next { gray32 with
        enc := .bilevel, width := 10, height := 1, pix := [⟨10, ⟨0, 0, 0⟩⟩], rspq := some 0 } := rfl

theorem witness_PixelWritesAreIdempotent :
    BufferInv gray32 ∧ BufferInv rgb11 ∧
    exec (.set 2 1 200 0 0) gray32 =
      .next { gray32 with pix := [⟨5, ⟨0, 0, 0⟩⟩, ⟨1, ⟨200, 0, 0⟩⟩], rspq := some 0 } ∧
    exec (.setch 0 0 2 255) rgb11 =
      .next { rgb11 with pix := [⟨1, ⟨10, 20, 255⟩⟩], rspq := some 0 } :=
  ⟨gray32_inv.buffer, rgb11_inv.buffer, rfl, rfl⟩

theorem witness_FailedCommandChangesNothing :
    Inv { gray32 with cmdq := [0x0100_0302] } ∧
    State.cmdTransfer { gray32 with cmdq := [0x0100_0302] } = some 0x0100_0302 ∧
    step { gray32 with cmdq := [0x0100_0302] } =
      .next { gray32 with busy := true, rspq := some 0x0102 } ∧ rspStatus 0x0102 ≠ 0 :=
  ⟨⟨⟨by decide, by decide, by decide, by decide, by decide, by decide⟩, by decide⟩, by decide, rfl,
    by decide⟩

theorem witness_FirstApplicableErrorIsReported :
    BufferInv rgb11 ∧ rgb11.rspq = none ∧ rgb11.held = none ∧
    firstError rgb11 0x1_0000_0000_0035 = 3 ∧ firstError rgb11 0x14 = 0 ∧
    (firstError rgb11 0x0100_0154 = 2 ∧ errorDetail rgb11 0x0100_0154 = 3) ∧
    (firstError rgb11 0x11 = 1 ∧ errorDetail rgb11 0x11 = 3) :=
  ⟨rgb11_inv.buffer, rfl, rfl, by decide, by decide, by decide, by decide⟩

/-- An access out of range, then INFO. -/
theorem witness_ErrorsAreNotLatched :
    BufferInv gray32 ∧ Idle gray32 ∧ firstError gray32 0x0100_0302 = 2 ∧
    (atomically (atomically gray32 0x0100_0302) 0x6).hostGot = [0x0102, 0x0900_0200_0300] :=
  ⟨gray32_inv.buffer, by decide, by decide, by rfl⟩

/-- The pair of the last entry, a command that writes another entry between, the largest legal value of
each form, and the first pair out of range. -/
theorem witness_WrittenValueIsReadBack :
    Idle gray32 ∧ gray32.live = true ∧
    (2 : Half).toNat < gray32.width.toNat ∧ (1 : Half).toNat < gray32.height.toNat ∧
    (∀ w ∈ [(0x0700_0100_0103 : CmdWord), 0x7], mayWrite w 2 1 = false) ∧
    PixelLegal gray32.enc ⟨255, 0, 0⟩ ∧
    ((0 : BitVec 4).toNat < gray32.enc.componentCount ∧ (255 : Half).toNat ≤ gray32.enc.chanMax) ∧
    gray32.width.toNat ≤ (3 : Half).toNat ∧ gray32.height.toNat ≤ (2 : Half).toNat ∧
    ((1 : Half) ≠ 2 ∨ (1 : Half) ≠ 1) :=
  ⟨by decide, by decide, by decide, by decide, by simp [mayWrite], by decide, by decide, by decide,
    by decide, by decide⟩

theorem witness_WrittenValueIsReadBack_inv : BufferInv gray32 := gray32_inv.buffer

theorem witness_DimensionsChangeOnlyBySuccessfulCreate :
    State.tick { gray32 with cmdq := [encode (.create 0 10 1 0 0 0)] } = Tick.go ∧
    step { gray32 with cmdq := [encode (.create 0 10 1 0 0 0)] } =
      .next { gray32 with
        enc := .bilevel, width := 10, height := 1, pix := [⟨10, ⟨0, 0, 0⟩⟩], rspq := some 0
        busy := true } :=
  ⟨by decide, rfl⟩

/-- The last pixel of a row and the first of the next one, and the last pixel of the largest buffer. -/
theorem witness_LinearIndexIsRowMajorAndInRange :
    ((2 : Half).toNat < gray32.width.toNat ∧ (0 : Half).toNat < gray32.height.toNat ∧
      (0 : Half).toNat < gray32.width.toNat ∧ (1 : Half).toNat < gray32.height.toNat) ∧
    pixelIndex gray32 2 0 = 2 ∧ pixelIndex gray32 0 1 = 3 ∧
    pixelIndex largest 65534 65534 = 4294836224 := by decide

theorem witness_CanonicalStoresAreEqualWhenTheirEntriesAre :
    row10.pix.wf = true ∧ Memory.wf [] = true ∧ Memory.wf [⟨0, ⟨1, 0, 0⟩⟩] = false ∧
    Memory.wf [⟨1, ⟨1, 0, 0⟩⟩, ⟨2, ⟨1, 0, 0⟩⟩] = false := by decide

theorem witness_DecimalRenderingIsCanonical :
    (9 ≤ 9 ∧ 10 ≤ 99 ∧ 100 ≤ 999 ∧ 1000 ≤ 9999 ∧ 10000 ≤ 65535 ∧ (7 : Nat) ≠ 0) ∧
    dec 0 = [0x30] ∧ dec 10 = [0x31, 0x30] ∧ dec 999 = [0x39, 0x39, 0x39] := by decide

theorem witness_StreamIsHeaderThenBody :
    row10.enc.code = 0 ∧ gray32.enc.code ≠ 0 ∧ deep11.enc.code ≠ 0 := by decide

theorem witness_HeaderAndTextBodyUseTheStatedCharacters :
    (0x0A : Byte) ∈ header .text .gray8 3 2 ∧ (0x30 : Byte) ∈ body .text .gray8 gray32.pix 3 2 := by decide

theorem witness_HeaderLengthIsTheStatedSum :
    (1 ≤ 1 ∧ 1 ≤ 65535 ∧ 65535 ≤ 65535) ∧ (header .binary .gray8 3 2).length = 11 := by decide

theorem witness_TextBodyIsTheEntriesInOrder : BufferInv rgb11 ∧ rgb11.live = true ∧
    body .text .rgb8 rgb11.pix 1 1 = [0x31, 0x30, 0x20, 0x32, 0x30, 0x20, 0x33, 0x30, 0x20] :=
  ⟨rgb11_inv.buffer, rfl, by decide⟩

theorem witness_TextBodyLengthIsTheStatedSum : BufferInv row10 ∧ row10.live = true :=
  ⟨row10_inv.buffer, rfl⟩

theorem witness_BilevelTextIsOneDigitAPixel :
    BufferInv row10 ∧ row10.live = true ∧ row10.enc = .bilevel :=
  ⟨row10_inv.buffer, rfl, rfl⟩

theorem witness_SampleBodyIsLittleEndianInOrder :
    (BufferInv deep11 ∧ deep11.live = true ∧ deep11.enc = .rgb16) ∧
    (BufferInv rgb11 ∧ rgb11.live = true ∧ rgb11.enc = .rgb8) ∧
    (BufferInv gray32 ∧ gray32.live = true ∧ gray32.enc = .gray8) :=
  ⟨⟨deep11_inv.buffer, rfl, rfl⟩, ⟨rgb11_inv.buffer, rfl, rfl⟩, gray32_inv.buffer, rfl, rfl⟩

theorem witness_SampleBodyIsLittleEndianInOrder_gray16 :
    BufferInv { gray32 with enc := .gray16, pix := [⟨6, ⟨65535, 0, 0⟩⟩] } :=
  ⟨by decide, by decide, by decide, by decide, by decide, by decide⟩

/-- The last pixel of the row and the first padding bit. -/
theorem witness_BilevelBodyStoresTheInvertedPixels :
    (BufferInv row10 ∧ row10.live = true ∧ row10.enc = .bilevel) ∧
    (0 < row10.height.toNat ∧ 1 < (row10.width.toNat + 7) / 8 ∧ 8 * 1 + 1 < row10.width.toNat ∧
      ¬ 8 * 1 + 2 < row10.width.toNat) :=
  ⟨⟨row10_inv.buffer, rfl, rfl⟩, by decide⟩

theorem witness_StreamLengthIsWithinTheStatedBounds :
    (BufferInv longest ∧ longest.live = true ∧ longest.enc = .rgb16 ∧ longest.width = 65535 ∧
      longest.height = 65535) ∧
    BufferInv { row10 with width := 1, pix := [⟨1, ⟨1, 0, 0⟩⟩] } :=
  ⟨⟨longest_inv.buffer, rfl, rfl, rfl, rfl⟩, by decide, by decide, by decide, by decide, by decide,
    by decide⟩

/-- Every entry of `longest` has five-digit channels. -/
theorem witness_StreamLengthIsWithinTheStatedBounds_entries :
    ∀ p ∈ longest.pix.toList, 10000 ≤ p.c0.toNat ∧ 10000 ≤ p.c1.toNat ∧ 10000 ≤ p.c2.toNat :=
  (Memory.forall_run_iff
    (fun p => 10000 ≤ p.c0.toNat ∧ 10000 ≤ p.c1.toNat ∧ 10000 ≤ p.c2.toNat) longest.pix
    longest_inv.buffer.canonical).1 (by decide)

theorem witness_StreamDependsOnTheBufferAlone :
    BufferInv row10 ∧ Idle row10 ∧ row10.live = true ∧
    (∀ i, (State.pix { row10 with hostGot := [0x5] }).read i = row10.pix.read i) ∧
    (∀ w ∈ [(0x6 : CmdWord), 0x2], w.toNat % 16 ≠ 1 ∧ w.toNat % 16 ≠ 3 ∧ w.toNat % 16 ≠ 5) :=
  ⟨row10_inv.buffer, by decide, rfl, fun _ => rfl, by simp⟩

theorem witness_SerializationDeliversExactlyTheStream :
    Inv { row10 with cmdq := [encode (serializeCommand .binary)] } ∧ row10.live = true ∧
    row10.busy = false ∧ row10.ticks = [] ∧
    State.presented { row10 with cmdq := [encode (serializeCommand .binary)] } =
      some (encode (serializeCommand .binary)) ∧ (streamOf .binary row10).length = 10 :=
  ⟨⟨⟨by decide, by decide, by decide, by decide, by decide, by decide⟩, by decide⟩, rfl, rfl, rfl,
    by decide, by decide⟩

/-- The sink stalls once between the bytes. -/
theorem witness_ResponseFollowsTheLastByte :
    Inv { row10 with
      cmdq := [encode (serializeCommand .binary)], ticks := [Tick.go, Tick.go, idleTick] } ∧
    (∀ tk ∈ [Tick.go, Tick.go, idleTick], tk.rst = false) ∧
    (match run 4 { row10 with
        cmdq := [encode (serializeCommand .binary)], ticks := [Tick.go, Tick.go, idleTick] } with
      | .next t => t.hostGot = [] ∧ t.sinkGot = [⟨0x50, false⟩, ⟨0x34, false⟩]
      | _ => False) :=
  ⟨⟨⟨by decide, by decide, by decide, by decide, by decide, by decide⟩, by decide⟩, by decide,
    ⟨by rfl, by rfl⟩⟩

/-- One byte sent, one stall, then a reset. -/
def stalled : State :=
  { row10 with
    cmdq := [encode (serializeCommand .binary)], ticks := [Tick.go, Tick.go, idleTick, rstTick] }

theorem witness_ResetAfterStallsAbortsASerialization :
    stalled.live = true ∧ stalled.cmdTransfer = some (encode (serializeCommand .binary)) ∧
    (∀ tk ∈ stalled.ticks.take 3, tk.rst = false) ∧
    (match run 3 stalled with
      | .next u => u.hostGot = [] ∧ u.outq.length = 9 ∧ u.tick = rstTick
      | _ => False) :=
  ⟨rfl, by decide, by decide, ⟨by rfl, by rfl, by rfl⟩⟩

theorem witness_ResetAfterStallsAbortsASerialization_inv : Inv stalled :=
  ⟨⟨by decide, by decide, by decide, by decide, by decide, by decide⟩, by decide⟩

/-- A reset when nine of the ten bytes have been sent. -/
theorem witness_ResetAbortsASerialization :
    9 < (streamOf .binary row10).length ∧ rstTick.rst = true ∧
    State.presented
      { row10 with
        cmdq := [encode (serializeCommand .binary)]
        ticks := List.replicate (1 + 9) Tick.go ++ [rstTick] } =
      some (encode (serializeCommand .binary)) := by decide

theorem witness_ResetAbortsASerialization_inv :
    Inv { row10 with
      cmdq := [encode (serializeCommand .binary)]
      ticks := List.replicate (1 + 9) Tick.go ++ [rstTick] } :=
  ⟨⟨by decide, by decide, by decide, by decide, by decide, by decide⟩, by decide⟩

end Sys2Proof.Tests
end

/-! PROOFS. The statements of 10_state, with the laws they rest on: a canonical store from its entries,
the phases and the invariant under a step, commands without a buffer or an entry, and the commands that
change LIVE, ENC, WIDTH and HEIGHT. -/

namespace Sys2Proof

/-- A word that decodes has the opcode of its command (30_encoding R70, R78). -/
theorem fieldOP_of_decode {w : CmdWord} {i : Instr} (h : decode w = .ok i) :
    fieldOP w = fieldOP (encode i) := by
  apply BitVec.eq_of_toNat_eq
  simp only [decode] at h
  split at h
  · cases h
  · split at h
    case h_8 => cases h
    all_goals
      rename_i hop
      split_ifs at h <;> cases h <;> simp [encode, hop]

end Sys2Proof

namespace Sys2Proof.Machine

/-! ## The canonical store -/

/-- The canonical store of a sequence of entries. -/
def Memory.ofList (l : List Pixel) : Memory := l.foldr (Memory.push 1) []

theorem Memory.push_zero (p : Pixel) (m : Memory) : Memory.push 0 p m = m := rfl

theorem Memory.push_push (k n : Nat) (p : Pixel) (m : Memory) :
    Memory.push k p (Memory.push n p m) = Memory.push (k + n) p m := by
  rcases Nat.eq_zero_or_pos k with rfl | hk
  · rw [Nat.zero_add, Memory.push_zero]
  rcases Nat.eq_zero_or_pos n with rfl | hn
  · rw [Nat.add_zero, Memory.push_zero]
  cases m with
  | nil => simp [Memory.push, hk.ne', hn.ne']
  | cons r m =>
    by_cases hp : r.pixel = p
    · simp [Memory.push, hk.ne', hn.ne', hp, Nat.add_assoc]
    · simp [Memory.push, hk.ne', hn.ne', hp]

/-- In a canonical store the first run is what `push` makes of it. -/
theorem Memory.push_of_wf_cons {r : Run} {m : Memory} (h : Memory.wf (r :: m) = true) :
    Memory.push r.count r.pixel m = r :: m := by
  obtain ⟨hcount, hnext, -⟩ := (Memory.wf_cons r m).1 h
  cases m with
  | nil => simp [Memory.push, hcount]
  | cons q m =>
    have hq : q.pixel ≠ r.pixel := (hnext q rfl).symm
    simp [Memory.push, hcount, hq]

theorem Memory.ofList_replicate_append (n : Nat) (p : Pixel) (l : List Pixel) :
    Memory.ofList (List.replicate n p ++ l) = Memory.push n p (Memory.ofList l) := by
  induction n with
  | zero => rfl
  | succ n ih =>
    calc Memory.ofList (List.replicate (n + 1) p ++ l)
        = Memory.push 1 p (Memory.ofList (List.replicate n p ++ l)) := rfl
      _ = Memory.push (n + 1) p (Memory.ofList l) := by
        rw [ih, Memory.push_push, Nat.add_comm]

/-- A canonical store is determined by its sequence of entries. -/
theorem Memory.ofList_toList {m : Memory} (h : m.wf = true) : Memory.ofList m.toList = m := by
  induction m with
  | nil => rfl
  | cons r m ih =>
    obtain ⟨-, -, hm⟩ := (Memory.wf_cons r m).1 h
    rw [Memory.toList_cons, Memory.ofList_replicate_append, ih hm, Memory.push_of_wf_cons h]

/-- Settles O43: `Memory.ofList` gives a canonical store back from its entries. -/
theorem canonicalStoresAreEqualWhenTheirEntriesAre :
    Obligations.CanonicalStoresAreEqualWhenTheirEntriesAre := by
  intro a b ha hb
  refine ⟨⟨fun hread => ?_, fun hab i => by rw [hab]⟩, a.read_eq_toList⟩
  have hlist : a.toList = b.toList := List.ext_getElem? fun i => by
    rw [← Memory.read_eq_toList, ← Memory.read_eq_toList, hread i]
  rw [← Memory.ofList_toList ha, hlist, Memory.ofList_toList hb]

/-! ## The phases -/

/-- BUSY is set and the command has not been performed yet. -/
abbrev Accepted (s : State) : Prop :=
  s.busy = true ∧ s.outq = [] ∧ s.rspq = none ∧ s.held = none

section
variable {s t : State}

theorem PhaseInv.idle (h : PhaseInv s) (hb : s.busy = false) : Idle s := by
  rcases h with hi | ⟨hbusy, -⟩ | ⟨hbusy, -⟩
  · exact hi
  · exact absurd (hbusy.symm.trans hb) (by decide)
  · exact absurd (hbusy.symm.trans hb) (by decide)

theorem PhaseInv.streaming (h : PhaseInv s) (ho : s.outq ≠ []) : Streaming s := by
  rcases h with ⟨-, hnil, -⟩ | ⟨-, hnil, -⟩ | hs
  · exact absurd hnil ho
  · exact absurd hnil ho
  · exact hs

theorem PhaseInv.responding (h : PhaseInv s) (hq : s.rspq ≠ none) : Responding s := by
  rcases h with ⟨-, -, hnone, -⟩ | hr | ⟨-, -, hnone, -⟩
  · exact absurd hnone hq
  · exact hr
  · exact absurd hnone hq

theorem Idle.accept (h : Idle s) : Accepted s.advance.takeCommand := by
  obtain ⟨-, hout, hrsp, hheld⟩ := h
  exact ⟨rfl, hout, hrsp, hheld⟩

theorem Accepted.respond (h : Accepted s) (st : Status) (d : RspData) :
    Responding (s.setResponse st d) := by
  obtain ⟨hbusy, hout, -, hheld⟩ := h
  exact ⟨hbusy, hout, rfl, hheld⟩

theorem streamOf_ne_nil (m : Mode) (s : State) : streamOf m s ≠ [] := stream_ne_nil _ _ _ _ _

theorem Accepted.beginStream (h : Accepted s) (m : Mode) :
    Streaming (s.beginStream (streamOf m s)) := by
  obtain ⟨hbusy, -, hrsp, -⟩ := h
  exact ⟨hbusy, streamOf_ne_nil m s, hrsp, rfl⟩

/-- An accepted command leaves a response or a stream. -/
theorem Accepted.exec (h : Accepted s) {i : Instr} (he : exec i s = .next t) : PhaseInv t := by
  rcases exec_next i s t he with ⟨st, d, rfl⟩ | ⟨-, k, p, q, -, -, rfl⟩ |
    ⟨e, w, ht, p, -, -, -, -, rfl⟩ | ⟨-, m, rfl⟩
  · exact .inr (.inl (h.respond st d))
  · exact .inr (.inl (Accepted.respond (s := s.storePixel k p) h .ok 0))
  · exact .inr (.inl (Accepted.respond (s := s.newBuffer e w ht p) h .ok 0))
  · exact .inr (.inr (h.beginStream m))

theorem Accepted.perform (h : Accepted s) {w : CmdWord} (hp : perform w s = .next t) :
    PhaseInv t := by
  rcases perform_next w s t hp with ⟨i, -, hi⟩ | ⟨r, -, rfl⟩
  · exact h.exec hi
  · exact .inr (.inl (h.respond _ _))

/-- SendByte leaves a shorter stream, or after the last byte the held response. -/
theorem Streaming.sendByte (h : Streaming s) {b : Byte} {rest : List Byte}
    (ho : s.outq = b :: rest) : PhaseInv (s.advance.sendByte ⟨b, rest.isEmpty⟩) := by
  obtain ⟨hbusy, -, hrsp, hheld⟩ := h
  cases rest with
  | nil => exact .inr (.inl ⟨hbusy, by simp [ho], by simpa using hheld, rfl⟩)
  | cons b' rest => exact .inr (.inr ⟨hbusy, by simp [ho], hrsp, hheld⟩)

theorem Responding.sendRsp (h : Responding s) (r : RspWord) : Idle (s.advance.sendRsp r) := by
  obtain ⟨-, hout, -, hheld⟩ := h
  exact ⟨rfl, hout, rfl, hheld⟩

/-- Everything a step that answers next has done. -/
theorem step_next (hs : step s = .next t) :
    (s.tick.rst = true ∧ t = s.advance.resetBlock) ∨
    (s.tick.rst = false ∧ s.busy = false ∧ ∃ w, s.cmdTransfer = some w ∧
      perform w s.advance.takeCommand = .next t) ∨
    (s.tick.rst = false ∧ ∃ b rest, s.outq = b :: rest ∧
      t = s.advance.sendByte ⟨b, rest.isEmpty⟩) ∨
    (s.tick.rst = false ∧ ∃ r, s.rspq = some r ∧ t = s.advance.sendRsp r) ∨
    (s.tick.rst = false ∧ t = s.advance) := by
  rcases step_cases s with ⟨hrst, hstep⟩ | ⟨hrst, w, hbusy, -, hw, hstep⟩ |
    ⟨hrst, -, b, rest, hout, -, hstep⟩ | ⟨hrst, -, r, hrsp, -, -, hstep⟩ | ⟨hrst, -, hstep⟩ <;>
    rw [hstep] at hs
  · exact .inl ⟨hrst, (next_inj.1 hs).symm⟩
  · exact .inr (.inl ⟨hrst, hbusy, w, hw, hs⟩)
  · exact .inr (.inr (.inl ⟨hrst, b, rest, hout, (next_inj.1 hs).symm⟩))
  · exact .inr (.inr (.inr (.inl ⟨hrst, r, hrsp, (next_inj.1 hs).symm⟩)))
  · exact .inr (.inr (.inr (.inr ⟨hrst, (next_inj.1 hs).symm⟩)))

theorem PhaseInv.step (h : PhaseInv s) (hs : step s = .next t) : PhaseInv t := by
  rcases step_next hs with ⟨-, rfl⟩ | ⟨-, hbusy, w, -, hperform⟩ | ⟨-, b, rest, hout, rfl⟩ |
    ⟨-, r, hrsp, rfl⟩ | ⟨-, rfl⟩
  · exact .inl ⟨rfl, rfl, rfl, rfl⟩
  · exact (h.idle hbusy).accept.perform hperform
  · exact (h.streaming (by simp [hout])).sendByte hout
  · exact .inl ((h.responding (by simp [hrsp])).sendRsp r)
  · exact h

/-! ## The invariant -/

theorem BufferInv.takeCommand (h : BufferInv s) : BufferInv s.advance.takeCommand :=
  h.congr rfl rfl rfl rfl rfl rfl

theorem BufferInv.step (h : BufferInv s) (hs : step s = .next t) : BufferInv t := by
  rcases step_next hs with ⟨-, rfl⟩ | ⟨-, -, w, -, hperform⟩ | ⟨-, b, rest, -, rfl⟩ |
    ⟨-, r, -, rfl⟩ | ⟨-, rfl⟩
  · exact BufferInv.resetBlock h.capacity
  · exact h.takeCommand.perform w hperform
  · exact h.congr rfl rfl rfl rfl rfl rfl
  · exact h.congr rfl rfl rfl rfl rfl rfl
  · exact h.congr rfl rfl rfl rfl rfl rfl

theorem Inv.step (h : Inv s) (hs : step s = .next t) : Inv t :=
  ⟨h.buffer.step hs, h.phase.step hs⟩

/-- Only an accepted word could stop the machine, and none does. -/
theorem BufferInv.step_total (h : BufferInv s) : ∃ t, Machine.step s = .next t := by
  rcases step_cases s with ⟨-, hstep⟩ | ⟨-, w, -, -, -, hstep⟩ |
    ⟨-, -, b, rest, -, -, hstep⟩ | ⟨-, -, r, -, -, -, hstep⟩ | ⟨-, -, hstep⟩
  · exact ⟨_, hstep⟩
  · obtain ⟨t, ht⟩ := h.takeCommand.perform_total w
    exact ⟨t, hstep.trans ht⟩
  · exact ⟨_, hstep⟩
  · exact ⟨_, hstep⟩
  · exact ⟨_, hstep⟩

theorem step_cfg (hs : step s = .next t) : t.cfg = s.cfg := by
  rcases step_next hs with ⟨-, rfl⟩ | ⟨-, -, w, -, hperform⟩ | ⟨-, b, rest, -, rfl⟩ |
    ⟨-, r, -, rfl⟩ | ⟨-, rfl⟩
  · rfl
  · obtain ⟨-, -, -, -, -, hcfg⟩ := perform_environment hperform
    exact hcfg
  · rfl
  · rfl
  · rfl

end

theorem Inv.start {c : Config} (hc : 1 ≤ c.pixCapacity) (ws : List CmdWord) (ts : List Tick) :
    Inv (State.start c ws ts) where
  buffer := BufferInv.resetBlock (s := State.start c ws ts) hc
  phase := .inl ⟨rfl, rfl, rfl, rfl⟩

theorem Enc.code_le (e : Enc) : e.code.toNat ≤ 4 := by
  cases e <;> decide

/-- Settles O5: `BufferInv.step` and `PhaseInv.step`, each by the transitions a step can take. -/
theorem everyStepKeepsTheInvariant : Obligations.EveryStepKeepsTheInvariant :=
  fun _ _ hinv hs => hinv.step hs

/-- Settles O6: a complete legal buffer answers every accepted word. -/
theorem everyStepFromTheInvariantAnswersNext : Obligations.EveryStepFromTheInvariantAnswersNext := by
  intro s hinv
  obtain ⟨t, ht⟩ := hinv.buffer.step_total
  exact ⟨t, ht, hinv.step ht⟩

/-- Settles O3: the reset state is the start of a conforming block that is presented nothing. -/
theorem resetStateMeetsTheInvariant : Obligations.ResetStateMeetsTheInvariant :=
  ⟨Inv.start (c := Config.conforming) (by decide) [] [], rfl, rfl, rfl⟩

/-- From reset every run answers next, keeps the invariant and leaves the parameter. -/
theorem run_start {c : Config} (hc : 1 ≤ c.pixCapacity) (ws : List CmdWord) (ts : List Tick)
    (n : Nat) : ∃ t, run n (State.start c ws ts) = .next t ∧ Inv t ∧ t.cfg = c := by
  refine run_total (fun s => Inv s ∧ s.cfg = c) ?_ n _ ⟨Inv.start hc ws ts, rfl⟩
  rintro s ⟨hinv, hcfg⟩
  obtain ⟨t, ht⟩ := hinv.buffer.step_total
  exact ⟨t, ht, hinv.step ht, (step_cfg ht).trans hcfg⟩

/-- Settles O7: `run_start`, with the invariant read on the flat sequence of entries. -/
theorem everyRunFromResetMeetsTheBufferInvariant :
    Obligations.EveryRunFromResetMeetsTheBufferInvariant := by
  intro c ws ts n hc
  obtain ⟨t, hrun, ⟨hbuf, -⟩, rfl⟩ := run_start hc ws ts n
  refine ⟨t, hrun, fun hlive => ?_⟩
  obtain ⟨hwidth, hheight, hcap⟩ := hbuf.dims hlive
  exact ⟨hwidth, hheight, t.enc.code_le, hcap, (Memory.length_toList _).trans (hbuf.size hlive),
    (Memory.forall_run_iff _ _ hbuf.canonical).1 hbuf.entries⟩

/-! ## The transitions -/

/-- Settles O8: each clause is one transition law, the phase giving BUSY, OUTQ and RSPQ. -/
theorem transitionsAreTheStatedOnes : Obligations.TransitionsAreTheStatedOnes := by
  intro s hphase
  refine ⟨fun w hrst hbusy hw => step_accept s w hrst hbusy hw, fun b rest hrst hout hready => ?_,
    fun r hrst hrsp hready => ?_, fun hrst => step_reset s hrst,
    fun hrst hn ho hq => step_wait s hrst hn ho hq, ?_, ?_, ?_⟩
  · obtain ⟨hbusy, -, hrsp, -⟩ := hphase.streaming (by simp [hout])
    rw [step_sendByte s b rest hrst (.inl hbusy) hout hready]
    cases rest <;> simp [State.sendByte, State.advance, hout, hrsp]
  · obtain ⟨hbusy, hout, -, -⟩ := hphase.responding (by simp [hrsp])
    exact step_sendRsp s r hrst (.inl hbusy) (.inl hout) hrsp hready
  · rintro ⟨hbusy, hout⟩
    obtain ⟨-, hnil, -⟩ := hphase.idle hbusy
    exact hout hnil
  · rintro ⟨hbusy, hrsp⟩
    obtain ⟨-, -, hnone, -⟩ := hphase.idle hbusy
    exact hrsp hnone
  · rintro ⟨hout, hrsp⟩
    obtain ⟨-, -, hnone, -⟩ := hphase.streaming hout
    exact hrsp hnone

/-- Settles O9: `step_accept`, on a word that decodes. -/
theorem stepRunsTheDecodedCommand : Obligations.StepRunsTheDecodedCommand := by
  intro s w i hrst hbusy hw hdec
  have hperform : ∀ u, perform w u = exec i u := fun u => by simp only [perform, hdec]
  exact (step_accept s w hrst hbusy hw).trans (hperform _)

/-- Settles O11: only Accept takes a word, and it needs BUSY and `rst` at 0. -/
theorem noWordIsTakenWhileBusyOrInReset : Obligations.NoWordIsTakenWhileBusyOrInReset := by
  intro s t hblocked hs
  refine ⟨by rcases hblocked with h | h <;> simp [State.cmdReady, h], ?_⟩
  rcases step_next hs with ⟨-, rfl⟩ | ⟨hrst, hbusy, w, -, -⟩ | ⟨-, b, rest, -, rfl⟩ |
    ⟨-, r, -, rfl⟩ | ⟨-, rfl⟩
  · rfl
  · simp [hrst, hbusy] at hblocked
  · rfl
  · rfl
  · rfl

/-- Settles O12: the levels of `out` by the shape of OUTQ, and SendByte in the phase it implies. -/
theorem outPortShowsTheHeadOfTheQueue : Obligations.OutPortShowsTheHeadOfTheQueue := by
  intro s hrst
  refine ⟨by simp [outValid_iff, hrst], by simp [outLast_iff, hrst],
    fun hout => by simp [State.outPort, hrst, hout], fun b rest hout => ?_⟩
  have hport : s.outPort = some ⟨b, rest.isEmpty⟩ := by simp [State.outPort, hrst, hout]
  constructor
  · rw [hport, hout]
    cases rest <;> simp
  · intro hphase hready
    obtain ⟨hbusy, -, -, -⟩ := hphase.streaming (by simp [hout])
    refine ⟨_, step_sendByte s b rest hrst (.inl hbusy) hout hready, by simp [hout], ?_⟩
    rw [← outPort_last hport]
    rfl

/-! ## Commands without a buffer, and with an entry missing -/

theorem raiseErr_zero (st : Status) (s : State) :
    raiseErr st 0 s = .next { s with rspq := some (rspNumber st.code.toNat 0) } :=
  congrArg Host.Outcome.next (setResponse_eq s st 0 (by decide))

/-- Without a buffer every command that needs one answers ERR_NO_BUFFER (60_exceptions R204). -/
theorem respondsOnly_errNoBuffer (s : State) (hl : s.live = false) (x y v0 v1 v2 : Half)
    (ch : BitVec 4) :
    RespondsOnly (.get x y) s 4 0 ∧ RespondsOnly (.set x y v0 v1 v2) s 4 0 ∧
    RespondsOnly (.getch x y ch) s 4 0 ∧ RespondsOnly (.setch x y ch v0) s 4 0 ∧
    RespondsOnly .sert s 4 0 ∧ RespondsOnly .serb s 4 0 := by
  have hbuffer : ∀ k, withBuffer s k = .next { s with rspq := some (rspNumber 4 0) } :=
    fun k => (withBuffer_dead s k hl).trans (raiseErr_zero .errNoBuffer s)
  exact ⟨hbuffer _, hbuffer _, hbuffer _, hbuffer _, hbuffer _, hbuffer _⟩

/-- Settles O1: reset has no buffer, and nothing it could transfer. -/
theorem resetLeavesTheStatedValues : Obligations.ResetLeavesTheStatedValues := by
  refine ⟨⟨rfl, rfl, rfl, rfl, rfl, rfl, rfl⟩, respondsOnly_errNoBuffer State.reset rfl,
    fun s hrst => ?_, step_wait State.reset rfl (.inr rfl) (.inl rfl) (.inl rfl)⟩
  simp [State.cmdReady, State.rspValid, State.rspPort, State.outValid, State.outLast,
    State.outPort, hrst]

theorem withPixel_none (s : State) (x y : Half) (k : Pixel → Host.Outcome State Fault Refusal)
    (h : s.pix.size ≤ pixelIndex s x y) : withPixel s x y k = .fault .pixelMissing := by
  have hread : s.pix.read (pixelIndex s x y) = none := by
    rw [← Option.not_isSome_iff_eq_none, Memory.read_isSome]
    exact not_lt.2 h
  simp [withPixel, hread]

/-- A store short of an entry of the buffer stops a serialization. -/
theorem serialize_incomplete (m : Mode) (s : State) (hl : s.live = true)
    (hs : s.pix.size ≠ pixelCount s) : serialize m s = .fault .pixelMissing := by
  rw [serialize, withBuffer_live s _ hl, if_neg (by simpa [storeComplete] using hs)]

theorem Enc.componentCount_pos (e : Enc) : 0 < e.componentCount := by
  rcases e.componentCount_cases with h | h <;> omega

theorem channel?_zero (e : Enc) : channel? e 0 = some 0 :=
  (channel?_eq_some e 0 0).2 ⟨rfl, e.componentCount_pos⟩

/-- Settles O32: past the checks, each access meets `withPixel` or `storeComplete` and faults there. -/
theorem missingEntryStopsTheAccess : Obligations.MissingEntryStopsTheAccess := by
  intro s x y hl hx hy hmiss
  have haccess : ∀ k, withCoords s x y (withPixel s x y k) = .fault .pixelMissing := fun k => by
    rw [withCoords_in s x y _ hl hx hy, withPixel_none s x y k hmiss]
  have hincomplete : s.pix.size ≠ pixelCount s := (lt_of_le_of_lt hmiss (idx_lt hx hy)).ne
  refine ⟨haccess _, ?_, fun v0 v1 v2 hlegal => ⟨?_, ?_⟩,
    serialize_incomplete .text s hl hincomplete, serialize_incomplete .binary s hl hincomplete⟩
  · simp only [exec, execGetch, channel?_zero]
    exact haccess _
  · simp only [exec, execSet, (valueOK_iff _ _).2 hlegal, if_true]
    exact haccess _
  · obtain ⟨hle, -⟩ := hlegal 0
    have hv : chanOK s.enc v0 = true := decide_eq_true (hle s.enc.componentCount_pos)
    simp only [exec, execSetch, channel?_zero, hv, if_true]
    exact haccess _

/-! ## The dimensions -/

/-- LIVE, ENC, WIDTH and HEIGHT are the same. -/
abbrev SameShape (s t : State) : Prop :=
  t.width = s.width ∧ t.height = s.height ∧ t.enc = s.enc ∧ t.live = s.live

section
variable {s t : State}

theorem sameShape_setResponse (st : Status) (d : RspData) : SameShape s (s.setResponse st d) :=
  ⟨rfl, rfl, rfl, rfl⟩

theorem serialize_sameShape {m : Mode} (he : serialize m s = .next t) : SameShape s t := by
  rcases serialize_next m s t he with ⟨-, rfl⟩ | ⟨-, -, rfl⟩
  · exact sameShape_setResponse _ _
  · exact ⟨rfl, rfl, rfl, rfl⟩

/-- A command keeps LIVE, ENC, WIDTH and HEIGHT, or is a CREATE that succeeds. -/
theorem exec_sameShape_or_create {i : Instr} (he : exec i s = .next t) :
    SameShape s t ∨ (fieldOP (encode i) = 1 ∧ t.rspq = some (rspNumber 0 0) ∧ t.live = true) := by
  cases i with
  | create c w h v0 v1 v2 =>
    rcases execCreate_next c w h v0 v1 v2 s t he with ⟨st, d, -, rfl⟩ | ⟨e, -, -, -, -, -, rfl⟩
    · exact .inl (sameShape_setResponse st d)
    · exact .inr ⟨fieldOP_packWord .., congrArg some (responseWord_eq .ok 0 (by decide)), rfl⟩
  | get x y =>
    obtain ⟨st, d, rfl⟩ := execGet_next x y s t he
    exact .inl (sameShape_setResponse st d)
  | set x y v0 v1 v2 =>
    rcases execSet_next x y v0 v1 v2 s t he with ⟨st, d, -, rfl⟩ | ⟨-, -, -, -, -, rfl⟩
    · exact .inl (sameShape_setResponse st d)
    · exact .inl ⟨rfl, rfl, rfl, rfl⟩
  | getch x y ch =>
    obtain ⟨st, d, rfl⟩ := execGetch_next x y ch s t he
    exact .inl (sameShape_setResponse st d)
  | setch x y ch v =>
    rcases execSetch_next x y ch v s t he with ⟨st, d, -, rfl⟩ | ⟨-, -, -, c, q, -, -, -, rfl⟩
    · exact .inl (sameShape_setResponse st d)
    · exact .inl ⟨rfl, rfl, rfl, rfl⟩
  | info =>
    obtain rfl := next_inj.1 he
    exact .inl (sameShape_setResponse _ _)
  | sert => exact .inl (serialize_sameShape he)
  | serb => exact .inl (serialize_sameShape he)

theorem perform_sameShape_or_create {w : CmdWord} (hp : perform w s = .next t) :
    SameShape s t ∨ (w.toNat % 16 = 1 ∧ t.rspq = some (rspNumber 0 0) ∧ t.live = true) := by
  rcases perform_next w s t hp with ⟨i, hdec, hi⟩ | ⟨r, -, rfl⟩
  · refine (exec_sameShape_or_create hi).imp_right ?_
    rintro ⟨hop, hrest⟩
    rw [← fieldOP_of_decode hdec] at hop
    exact ⟨(fieldOP_toNat w).symm.trans (congrArg BitVec.toNat hop), hrest⟩
  · exact .inl (sameShape_setResponse _ _)

theorem step_sameShape_or_create (hrst : s.tick.rst = false) (hs : step s = .next t) :
    SameShape s t ∨ ∃ w, s.cmdTransfer = some w ∧ w.toNat % 16 = 1 ∧
      t.rspq = some (rspNumber 0 0) ∧ t.live = true := by
  rcases step_next hs with ⟨h, -⟩ | ⟨-, -, w, hw, hperform⟩ | ⟨-, b, rest, -, rfl⟩ |
    ⟨-, r, -, rfl⟩ | ⟨-, rfl⟩
  · exact absurd (h.symm.trans hrst) (by decide)
  · exact (perform_sameShape_or_create hperform).imp id fun hcreate => ⟨w, hw, hcreate⟩
  · exact .inl ⟨rfl, rfl, rfl, rfl⟩
  · exact .inl ⟨rfl, rfl, rfl, rfl⟩
  · exact .inl ⟨rfl, rfl, rfl, rfl⟩

end

/-- Settles O41: `step_sameShape_or_create`, in which LIVE is kept or set. -/
theorem dimensionsChangeOnlyBySuccessfulCreate :
    Obligations.DimensionsChangeOnlyBySuccessfulCreate := by
  intro s t hrst hs
  have hcases := step_sameShape_or_create hrst hs
  refine ⟨fun hlive => ?_, hcases⟩
  rcases hcases with ⟨-, -, -, hsame⟩ | ⟨w, -, -, -, hcreated⟩
  · exact hsame.trans hlive
  · exact hcreated

end Sys2Proof.Machine

/-! PROOFS. The statements of 20_memory: the linear index, a placed word, the frame of the reading
commands, the repeated pixel write, and the words of a run: one response for each, and each as one atomic
event. -/

namespace Sys2Proof

theorem tableWord_toNat (w : CmdWord) : tableWord 96 w.toNat = some w := by
  simp [tableWord, Nat.mod_eq_of_lt w.isLt, w.isLt]

end Sys2Proof

namespace Sys2Proof.Machine

/-! ## The linear index, R51 -/

section
variable {w x y x' y' : Nat}

theorem idx_lt_of_row_lt (hx : x < w) (hy : y < y') : idx w x y < idx w x' y' :=
  calc idx w x y < w * y' := idx_lt hx hy
    _ = y' * w := Nat.mul_comm w y'
    _ ≤ idx w x' y' := Nat.le_add_right _ _

/-- The order of the indices is row-major. -/
theorem idx_lt_idx_iff (hx : x < w) (hx' : x' < w) :
    idx w x y < idx w x' y' ↔ y < y' ∨ (y = y' ∧ x < x') := by
  rcases lt_trichotomy y y' with hy | rfl | hy
  · simp [hy, idx_lt_of_row_lt hx hy]
  · simp [idx]
  · simp [hy.not_gt, hy.ne', (idx_lt_of_row_lt hx' hy).le]

theorem idx_inj (hx : x < w) (hx' : x' < w) (h : idx w x y = idx w x' y') : x = x' ∧ y = y' := by
  have hlt : ¬ (y < y' ∨ (y = y' ∧ x < x')) := fun hc => ((idx_lt_idx_iff hx hx').2 hc).ne h
  have hgt : ¬ (y' < y ∨ (y' = y ∧ x' < x)) := fun hc => ((idx_lt_idx_iff hx' hx).2 hc).ne h.symm
  omega

end

/-- The number of entries of a buffer is at most 65535 * 65535 (10_state R24, R25). -/
theorem pixelCount_le (s : State) : pixelCount s ≤ 4294836225 :=
  Nat.mul_le_mul (Nat.le_of_lt_succ s.width.isLt) (Nat.le_of_lt_succ s.height.isLt)

/-- Settles O42: `idx_lt`, `idx_lt_idx_iff` and `idx_inj` on the coordinates as numbers. -/
theorem linearIndexIsRowMajorAndInRange : Obligations.LinearIndexIsRowMajorAndInRange := by
  intro s x y x' y' hx hy hx' _
  have hrange : pixelIndex s x y < pixelCount s := idx_lt hx hy
  refine ⟨rfl, hrange, ?_, fun hw _ => ?_, fun h => ?_, idx_lt_idx_iff hx hx'⟩
  · exact Nat.le_of_lt_succ (hrange.trans_le (pixelCount_le s))
  · rw [pixelIndex, hw]
    rfl
  · obtain ⟨hxx, hyy⟩ := idx_inj hx hx' h
    exact ⟨BitVec.eq_of_toNat_eq hxx, BitVec.eq_of_toNat_eq hyy⟩

/-! ## A placed word, R62 -/

theorem perform_of_decode {w : CmdWord} {i : Instr} (h : decode w = .ok i) (s : State) :
    perform w s = exec i s := by
  simp only [perform, h]

theorem withFetchWord_toNat (s : State) (w : CmdWord) :
    s.withFetchWord 96 w.toNat = s.present w := by
  rw [State.withFetchWord, State.presentTableWord, tableWord_toNat]

theorem step_present (s : State) (w : CmdWord) :
    step (s.present w) = perform w { s with busy := true } :=
  step_accept (s.present w) w rfl rfl rfl

theorem decode_of_decodeTableWord {w : CmdWord} {i : Instr}
    (h : decodeTableWord 96 w.toNat = some i) : decode w = .ok i := by
  rw [decodeTableWord, tableWord_toNat] at h
  cases hdec : decode w with
  | ok j => simpa [hdec] using h
  | error r => simp [hdec] at h

/-- Settles O10: the placed word is the word itself, and the step from it is Accept. -/
theorem placedWordIsRunByTheNextStep : Obligations.PlacedWordIsRunByTheNextStep := by
  intro s w i h
  have hdec := decode_of_decodeTableWord h
  exact ⟨hdec, by rw [withFetchWord_toNat, step_present, perform_of_decode hdec]⟩

/-! ## The frame of the commands that write no pixel, R59 -/

section
variable {s t : State}

/-- Only RSPQ, OUTQ and the held response may differ. -/
abbrev SameButOutputs (s t : State) : Prop :=
  t = { s with outq := t.outq, rspq := t.rspq, held := t.held }

/-- Only RSPQ may differ. -/
abbrev SameButResponse (s t : State) : Prop := t = { s with rspq := t.rspq }

theorem sameButResponse_of_responded (h : ∃ st d, t = s.setResponse st d) :
    SameButResponse s t := by
  obtain ⟨st, d, rfl⟩ := h
  rfl

theorem serialize_sameButOutputs {m : Mode} (h : serialize m s = .next t) : SameButOutputs s t := by
  rcases serialize_next m s t h with ⟨-, rfl⟩ | ⟨-, -, rfl⟩
  · rfl
  · rfl

end

/-- Settles O33: GET, GETCH and INFO answer with a response, SERT and SERB with one or with a stream. -/
theorem readingCommandsWriteOnlyBookkeeping : Obligations.ReadingCommandsWriteOnlyBookkeeping := by
  have hget : ∀ (s t : State) x y, exec (.get x y) s = .next t → SameButResponse s t :=
    fun s t x y h => sameButResponse_of_responded (execGet_next x y s t h)
  have hgetch : ∀ (s t : State) x y ch, exec (.getch x y ch) s = .next t → SameButResponse s t :=
    fun s t x y ch h => sameButResponse_of_responded (execGetch_next x y ch s t h)
  have hinfo : ∀ s t : State, exec .info s = .next t → SameButResponse s t :=
    fun s t h => sameButResponse_of_responded ⟨_, _, (next_inj.1 h).symm⟩
  have hser : ∀ s t : State, (exec .sert s = .next t ∨ exec .serb s = .next t) →
      SameButOutputs s t :=
    fun s t h => h.elim serialize_sameButOutputs serialize_sameButOutputs
  refine ⟨hget, hgetch, hinfo, hser, ?_⟩
  rintro s t i (⟨x, y, rfl⟩ | ⟨x, y, ch, rfl⟩ | rfl | rfl | rfl) h j
  · rw [hget s t x y h]
  · rw [hgetch s t x y ch h]
  · rw [hinfo s t h]
  · rw [hser s t (.inl h)]
  · rw [hser s t (.inr h)]

/-! ## The repeated pixel write, R59 -/

theorem Memory.eq_of_toList_eq {a b : Memory} (ha : a.wf = true) (hb : b.wf = true)
    (h : a.toList = b.toList) : a = b := by
  rw [← Memory.ofList_toList ha, h, Memory.ofList_toList hb]

theorem Memory.write_write {m : Memory} (hm : m.wf = true) (i : Nat) (p q : Pixel) :
    (m.write i p).write i q = m.write i q := by
  refine Memory.eq_of_toList_eq (Memory.wf_write _ _ _ (Memory.wf_write _ _ _ hm))
    (Memory.wf_write _ _ _ hm) ?_
  simp only [Memory.toList_write, List.set_set]

theorem Memory.read_write_same {m : Memory} {i : Nat} {q : Pixel} (h : m.read i = some q)
    (p : Pixel) : (m.write i p).read i = some p := by
  have hi : i < m.size := (Memory.read_isSome m i).1 (by rw [h]; rfl)
  rw [Memory.read_write, if_pos ⟨rfl, hi⟩]

theorem Pixel.withChan_withChan (p : Pixel) (c : Fin 3) (v : Half) :
    (p.withChan c v).withChan c v = p.withChan c v := by
  refine Pixel.ext_chan fun d => ?_
  simp only [Pixel.chan_withChan]
  split_ifs <;> rfl

/-- What SET and SETCH do past their checks: the entry is replaced by `f` of it, and the response is
OK. -/
def rewriteEntry (s : State) (x y : Half) (f : Pixel → Pixel) :
    Host.Outcome State Fault Refusal :=
  withPixel s x y fun p => respond .ok 0 (s.storePixel (pixelIndex s x y) (f p))

section
variable {s t : State} {x y : Half}

theorem SameShape.enc (h : SameShape s t) : t.enc = s.enc := by
  obtain ⟨-, -, henc, -⟩ := h
  exact henc

/-- The checks of an access that has answered `t` lead to the same answer in `t`. -/
theorem withCoords_again {k k' : Host.Outcome State Fault Refusal}
    (h : withCoords s x y k = .next t)
    (hk : k = .next t → SameShape s t ∧ k' = .next t) : withCoords t x y k' = .next t := by
  rcases withCoords_next s t x y k h with ⟨hl, rfl⟩ | ⟨hl, ho, rfl⟩ | ⟨hl, hx, hy, hnext⟩
  · exact withCoords_dead _ x y k' hl
  · exact withCoords_out _ x y k' hl ho
  · obtain ⟨⟨hwidth, hheight, -, hlive⟩, hk'⟩ := hk hnext
    rw [withCoords_in t x y k' (hlive.trans hl) (by rwa [hwidth]) (by rwa [hheight]), hk']

/-- A rewrite that changes nothing the second time may be repeated. -/
theorem rewriteEntry_again (hb : BufferInv s) {f : Pixel → Pixel} (hf : ∀ p, f (f p) = f p)
    (h : rewriteEntry s x y f = .next t) : SameShape s t ∧ rewriteEntry t x y f = .next t := by
  obtain ⟨q, hq, hnext⟩ := withPixel_next s t x y _ h
  obtain rfl := next_inj.1 hnext
  refine ⟨⟨rfl, rfl, rfl, rfl⟩, ?_⟩
  rw [rewriteEntry, withPixel_some _ x y _ (f q) (Memory.read_write_same hq (f q)), hf, respond_eq,
    next_inj]
  simp only [State.setResponse, State.storePixel, pixelIndex]
  rw [Memory.write_write hb.canonical]

theorem execSet_again (hb : BufferInv s) {v0 v1 v2 : Half}
    (h : execSet x y v0 v1 v2 s = .next t) : execSet x y v0 v1 v2 t = .next t := by
  refine withCoords_again h fun hk => ?_
  split at hk
  case isTrue hv =>
    obtain ⟨hshape, hagain⟩ :=
      rewriteEntry_again (f := fun _ => ⟨v0, v1, v2⟩) hb (fun _ => rfl) hk
    exact ⟨hshape, by rw [hshape.enc, if_pos hv]; exact hagain⟩
  case isFalse hv =>
    obtain rfl := next_inj.1 hk
    exact ⟨sameShape_setResponse _ _, if_neg hv⟩

theorem execSetch_again (hb : BufferInv s) {ch : BitVec 4} {v : Half}
    (h : execSetch x y ch v s = .next t) : execSetch x y ch v t = .next t := by
  refine withCoords_again h fun hk => ?_
  cases hc : channel? s.enc ch with
  | none =>
    simp only [hc] at hk
    obtain rfl := next_inj.1 hk
    exact ⟨sameShape_setResponse _ _, by simp only [State.setResponse_enc, hc]; rfl⟩
  | some c =>
    simp only [hc] at hk
    split at hk
    case isTrue hv =>
      obtain ⟨hshape, hagain⟩ :=
        rewriteEntry_again (f := fun p => p.withChan c v) hb (fun p => p.withChan_withChan c v) hk
      refine ⟨hshape, ?_⟩
      simp only [hshape.enc, hc, hv, if_true]
      exact hagain
    case isFalse hv =>
      obtain rfl := next_inj.1 hk
      refine ⟨sameShape_setResponse _ _, ?_⟩
      simp only [State.setResponse_enc, hc, hv]
      rfl

end

/-- Settles O36: the checks answer as before, and writing the entry again leaves the same canonical
store. -/
theorem pixelWritesAreIdempotent : Obligations.PixelWritesAreIdempotent := by
  rintro s t x y i hb (⟨v0, v1, v2, rfl⟩ | ⟨ch, v, rfl⟩) h
  · exact execSet_again hb h
  · exact execSetch_again hb h

/-! ## One response for every word, R60 -/

/-- The words still to present, the one in the block, and the responses received. -/
def wordsAndResponses (s : State) : Nat :=
  s.cmdq.length + (if s.busy then 1 else 0) + s.hostGot.length

/-- No step of the schedule is a reset. -/
abbrev ResetFree (s : State) : Prop := ∀ tk ∈ s.ticks, tk.rst = false

/-- Between `s` and `t` no word or response was lost, made up or moved out of its order. -/
structure Conserves (s t : State) : Prop where
  total : wordsAndResponses s = wordsAndResponses t
  responses : s.hostGot <+: t.hostGot
  words : t.cmdq <:+ s.cmdq

section
variable {s t u : State}

theorem Conserves.refl : Conserves s s := ⟨rfl, List.prefix_rfl, List.suffix_rfl⟩

theorem Conserves.trans (h : Conserves s t) (h' : Conserves t u) : Conserves s u :=
  ⟨h.total.trans h'.total, h.responses.trans h'.responses, h'.words.trans h.words⟩

/-- A change of neither the words, BUSY nor the responses received. -/
theorem Conserves.of_eq (hq : t.cmdq = s.cmdq) (hb : t.busy = s.busy) (hg : t.hostGot = s.hostGot) :
    Conserves s t where
  total := by simp only [wordsAndResponses, hq, hb, hg]
  responses := by rw [hg]
  words := by rw [hq]

theorem ResetFree.tick (h : ResetFree s) : s.tick.rst = false := by
  cases hticks : s.ticks with
  | nil => rw [tick_of_nil s hticks]; rfl
  | cons tk rest => simpa [State.tick, hticks] using h tk (by simp [hticks])

theorem cmdTransfer_cmdq {w : CmdWord} (h : s.cmdTransfer = some w) : s.cmdq = w :: s.cmdq.tail := by
  refine cmdq_of_presented ?_
  unfold State.cmdTransfer at h
  split at h
  · exact h
  · cases h

/-- A step without reset uses up its input levels. -/
theorem step_ticks (hrst : s.tick.rst = false) (hs : step s = .next t) : t.ticks = s.ticks.tail := by
  rcases step_next hs with ⟨h, -⟩ | ⟨-, -, w, -, hperform⟩ | ⟨-, b, rest, -, rfl⟩ |
    ⟨-, r, -, rfl⟩ | ⟨-, rfl⟩
  · exact absurd (h.symm.trans hrst) (by decide)
  · obtain ⟨-, hticks, -⟩ := perform_environment hperform
    exact hticks
  · rfl
  · rfl
  · rfl

theorem ResetFree.step (h : ResetFree s) (hs : step s = .next t) : ResetFree t := by
  intro tk htk
  rw [step_ticks h.tick hs] at htk
  exact h tk (List.mem_of_mem_tail htk)

/-- Accept moves a word from the host into the block, SendRsp turns the word in the block into a
response, and no other transition without reset touches either. -/
theorem Conserves.step (hphase : PhaseInv s) (hrst : s.tick.rst = false) (hs : step s = .next t) :
    Conserves s t := by
  rcases step_next hs with ⟨h, -⟩ | ⟨-, hidle, w, hw, hperform⟩ | ⟨-, b, rest, -, rfl⟩ |
    ⟨-, r, hrsp, rfl⟩ | ⟨-, rfl⟩
  · exact absurd (h.symm.trans hrst) (by decide)
  · obtain ⟨hq, -, hg, -, hb, -⟩ := perform_environment hperform
    simp only [State.takeCommand_cmdq, State.takeCommand_busy, State.takeCommand_hostGot,
      State.advance_cmdq, State.advance_hostGot] at hq hb hg
    refine ⟨?_, by rw [hg], by rw [hq]; exact List.tail_suffix _⟩
    have hlen : s.cmdq.length = s.cmdq.tail.length + 1 :=
      congrArg List.length (cmdTransfer_cmdq hw)
    simp only [wordsAndResponses, hq, hb, hg, hidle, if_true, Bool.false_eq_true, if_false]
    omega
  · exact .of_eq rfl rfl rfl
  · obtain ⟨hbusy, -⟩ := hphase.responding (by simp [hrsp])
    refine ⟨?_, List.prefix_append _ _, List.suffix_rfl⟩
    simp [wordsAndResponses, hbusy]
    omega
  · exact .of_eq rfl rfl rfl

end

/-- Settles O14: `Conserves.step`, over the run. -/
theorem everyCommandGetsOneResponse : Obligations.EveryCommandGetsOneResponse := by
  intro n s t hinv hfree hrun
  have hkeeps : ∀ u v, (Inv u ∧ ResetFree u ∧ Conserves s u) → step u = .next v →
      Inv v ∧ ResetFree v ∧ Conserves s v := by
    rintro u v ⟨hu, hfree, hcons⟩ hs
    exact ⟨hu.step hs, hfree.step hs, hcons.trans (.step hu.phase hfree.tick hs)⟩
  obtain ⟨-, -, htotal, hresponses, hwords⟩ :=
    run_keeps _ hkeeps n s t ⟨hinv, hfree, .refl⟩ hrun
  exact ⟨htotal, hresponses, hwords⟩

/-! ## Each word as one atomic event, R58, R60, R61 -/

/-- The block has sent its stream and its response, and is quiescent again. -/
def State.complete (s : State) : State :=
  { s with
    busy := false
    outq := []
    rspq := none
    held := none
    sinkGot := s.sinkGot ++ transfersOf s.outq
    hostGot := s.hostGot ++ (s.rspq.or s.held).toList }

theorem atomically_of_next {s t : State} {w : CmdWord} (h : perform w s = .next t) :
    atomically s w = t.complete := by
  rw [atomically, h]
  rfl

/-- `atomically` neither reads nor writes the host's words. -/
theorem atomically_cmdq (s : State) (w : CmdWord) (q : List CmdWord) :
    atomically { s with cmdq := q } w = { atomically s w with cmdq := q } := by
  have hmap : perform w { s with cmdq := q } =
      mapNext (withPort s.busy q s.hostGot) (perform w s) :=
    perform_map s.busy q s.hostGot s w
  cases hp : perform w s with
  | next t =>
    obtain ⟨-, -, hg, -⟩ := perform_environment hp
    rw [hp] at hmap
    rw [atomically_of_next hp, atomically_of_next hmap]
    simp only [State.complete, hg]
  | fault r => rw [atomically, hmap, hp, atomically, hp]; rfl
  | refused r => rw [atomically, hmap, hp, atomically, hp]; rfl

section
variable {s t : State}

theorem advance_of_nil (h : s.ticks = []) : s.advance = s := by
  rw [State.advance, h, List.tail_nil, ← h]

theorem Responding.complete (h : Responding s) (hticks : s.ticks = []) :
    step s = .next s.complete := by
  obtain ⟨hbusy, hout, hrsp, hheld⟩ := h
  obtain ⟨r, hr⟩ := Option.isSome_iff_exists.1 hrsp
  have htick := tick_of_nil s hticks
  rw [step_sendRsp s r (by rw [htick]; rfl) (.inl hbusy) (.inl hout) hr (by rw [htick]; rfl),
    advance_of_nil hticks]
  simp [State.sendRsp, State.complete, hout, hr, hheld, transfersOf]

/-- Sending a byte does not change what the block will have sent in all. -/
theorem Streaming.complete_sendByte (h : Streaming s) {b : Byte} {rest : List Byte}
    (ho : s.outq = b :: rest) : (s.sendByte ⟨b, rest.isEmpty⟩).complete = s.complete := by
  obtain ⟨-, -, hrsp, -⟩ := h
  cases rest <;> simp [State.complete, State.sendByte, ho, hrsp, transfersOf]

/-- A busy block with ready receivers sends everything it has. -/
theorem run_complete (bytes : List Byte) : ∀ s : State, PhaseInv s → s.busy = true →
    s.ticks = [] → s.outq = bytes → ∃ n, run n s = .next s.complete := by
  induction bytes with
  | nil =>
    intro s hphase hbusy hticks hout
    rcases hphase with ⟨hidle, -⟩ | hresp | ⟨-, hne, -⟩
    · exact absurd (hidle.symm.trans hbusy) (by decide)
    · exact ⟨1, run_succ_next 0 (hresp.complete hticks)⟩
    · exact absurd hout hne
  | cons b rest ih =>
    intro s hphase hbusy hticks hout
    have hstream := hphase.streaming (by simp [hout])
    have htick := tick_of_nil s hticks
    have hstep := step_sendByte s b rest (by rw [htick]; rfl) (.inl hbusy) hout (by rw [htick]; rfl)
    have hnext := hstream.sendByte hout
    rw [advance_of_nil hticks] at hstep hnext
    obtain ⟨n, hn⟩ := ih _ hnext hbusy hticks (by simp [hout])
    rw [hstream.complete_sendByte hout] at hn
    exact ⟨n + 1, (run_succ_next n hstep).trans hn⟩

/-- A quiescent block with a ready environment performs the next word whole. -/
theorem run_word (hinv : Inv s) (hbusy : s.busy = false) (hticks : s.ticks = []) {w : CmdWord}
    {ws : List CmdWord} (hq : s.cmdq = w :: ws) :
    ∃ n, run n s = .next (atomically { s with cmdq := ws } w) := by
  have htick := tick_of_nil s hticks
  have hw : s.presented = some w := by
    rw [State.presented, htick, hq]
    rfl
  have hstep := step_accept s w (by rw [htick]; rfl) hbusy hw
  have htake : s.advance.takeCommand = withPort true ws s.hostGot { s with cmdq := ws } := by
    rw [advance_of_nil hticks, State.takeCommand, hq, List.tail_cons]
  have hbuf : BufferInv { s with cmdq := ws } := hinv.buffer.congr rfl rfl rfl rfl rfl rfl
  obtain ⟨t, ht⟩ := hbuf.perform_total w
  obtain ⟨htq, htticks, htg, -, -, -⟩ := perform_environment ht
  rw [htake, perform_map, ht] at hstep
  obtain ⟨n, hn⟩ := run_complete _ _ (hinv.step hstep).phase rfl (htticks.trans hticks) rfl
  refine ⟨n + 1, (run_succ_next n hstep).trans (hn.trans ?_)⟩
  rw [atomically_of_next ht]
  simp only [State.complete, htq, htg]

theorem atomically_quiescent {w : CmdWord} (hb : BufferInv s) (hticks : s.ticks = []) :
    (atomically s w).busy = false ∧ (atomically s w).ticks = [] ∧
      (atomically s w).cmdq = s.cmdq := by
  obtain ⟨t, ht⟩ := hb.perform_total w
  obtain ⟨htq, htticks, -⟩ := perform_environment ht
  rw [atomically_of_next ht]
  exact ⟨rfl, htticks.trans hticks, htq⟩

/-- With a ready environment the words take effect one after another, each whole. -/
theorem run_words (ws : List CmdWord) : ∀ s : State, Inv s → s.busy = false → s.ticks = [] →
    s.cmdq = ws → ∃ n, run n s = .next (ws.foldl atomically { s with cmdq := [] }) := by
  induction ws with
  | nil =>
    intro s _ _ _ hq
    exact ⟨0, by rw [List.foldl_nil, ← hq, run_zero]⟩
  | cons w ws ih =>
    intro s hinv hbusy hticks hq
    obtain ⟨n, hn⟩ := run_word hinv hbusy hticks hq
    have hbuf : BufferInv { s with cmdq := ws } := hinv.buffer.congr rfl rfl rfl rfl rfl rfl
    obtain ⟨hbusy', hticks', hq'⟩ := atomically_quiescent (w := w) hbuf hticks
    have hinv' : Inv (atomically { s with cmdq := ws } w) :=
      run_keeps Inv (fun _ _ h hs => h.step hs) n s _ hinv hn
    obtain ⟨m, hm⟩ := ih _ hinv' hbusy' hticks' hq'
    refine ⟨n + m, ?_⟩
    rw [run_add n m s _ hn, hm, List.foldl_cons, ← atomically_cmdq]

end

/-- Settles O15: `run_words`, on all the words of the host. -/
theorem readyEnvironmentSeesAtomicCommandsInOrder :
    Obligations.ReadyEnvironmentSeesAtomicCommandsInOrder := by
  rintro s hinv ⟨hbusy, -⟩ hticks
  exact run_words s.cmdq s hinv hbusy hticks rfl

end Sys2Proof.Machine

/-! PROOFS. The statements of 30_encoding: the decoder and the encoder as inverses, the legal words as the
words of the well-formed commands, the response word, and the characters of a header and a text body. -/

namespace Sys2Proof

/-! ## The selector of CREATE and of SERIALIZE, R71, R74 -/

theorem selEnc_append (enc : BitVec 3) : selEnc (0#1 ++ enc) = enc := by
  revert enc
  decide

theorem selTop_append (enc : BitVec 3) : selTop (0#1 ++ enc) = 0 := by
  revert enc
  decide

theorem append_enc_toNat (enc : BitVec 3) : (0#1 ++ enc : BitVec 4).toNat = enc.toNat := by
  rw [append_toNat]
  simp

theorem append_selEnc {sel : BitVec 4} (h : selTop sel = 0) : 0#1 ++ selEnc sel = sel := by
  revert sel
  decide

theorem eq_selMode {sel : BitVec 4} (h : selHigh sel = 0) :
    sel = if selMode sel = 0 then 0 else 1 := by
  revert sel
  decide

theorem selTop_eq_zero_iff (sel : BitVec 4) : selTop sel = 0 ↔ sel &&& 8 = 0 := by
  revert sel
  decide

theorem selEnc_toNat (sel : BitVec 4) : (selEnc sel).toNat = sel.toNat % 8 := by
  revert sel
  decide

/-! ## The word of a command, R70, R78 -/

/-- A word with RSV 0 is the packed word of exactly its own fields. -/
theorem packWord_eq_iff {op sel : BitVec 4} {a b v0 v1 v2 : Half} {w : CmdWord} :
    packWord op sel a b v0 v1 v2 = w ↔
      fieldRSV w = 0 ∧ fieldOP w = op ∧ fieldSEL w = sel ∧ fieldA w = a ∧ fieldB w = b ∧
        fieldV0 w = v0 ∧ fieldV1 w = v1 ∧ fieldV2 w = v2 := by
  constructor
  · rintro rfl
    simp
  · rintro ⟨hrsv, rfl, rfl, rfl, rfl, rfl, rfl, rfl⟩
    exact packWord_fields w hrsv

theorem decode_encode (i : Instr) (h : i.wf = true) : decode (encode i) = .ok i := by
  cases i with
  | create enc x y v0 v1 v2 =>
    have henc : ¬ 4 < enc.toNat := not_lt.2 (of_decide_eq_true h)
    simp [decode, encode, selTop_append, selEnc_append, henc]
  | get x y => simp [decode, encode]
  | set x y v0 v1 v2 => simp [decode, encode]
  | getch x y ch => simp [decode, encode]
  | setch x y ch v => simp [decode, encode]
  | info => simp [decode, encode]
  | sert => simp [decode, encode, selHigh, selMode]
  | serb => simp [decode, encode, selHigh, selMode]

/-- What the decoder has checked of a word it accepts, opcode by opcode, is what the fields of the
command's word are. -/
theorem encode_of_decode {w : CmdWord} {i : Instr} (h : decode w = .ok i) :
    i.wf = true ∧ encode i = w := by
  simp only [decode] at h
  split at h
  case isTrue => cases h
  case isFalse hrsv =>
  rw [not_not] at hrsv
  have hopcode : ∀ op, fieldOP w = op ↔ (fieldOP w).toNat = op.toNat := fun _ => BitVec.toNat_eq
  split at h
  case h_1 hop =>
    split_ifs at h with htop henc
    cases h
    rw [not_not] at htop
    exact ⟨decide_eq_true (not_lt.1 henc),
      by simp [encode, packWord_eq_iff, hrsv, hopcode, hop, append_selEnc htop]⟩
  case h_2 hop | h_3 hop | h_4 hop | h_5 hop | h_6 hop =>
    split_ifs at h with hunused
    cases h
    simp only [not_or, not_not] at hunused
    exact ⟨rfl, by simp [encode, packWord_eq_iff, hrsv, hopcode, hop, hunused]⟩
  case h_7 hop =>
    split at h
    case isTrue => cases h
    case isFalse hunused =>
    simp only [not_or, not_not] at hunused
    obtain ⟨hhigh, hunused⟩ := hunused
    have hsel := eq_selMode hhigh
    split_ifs at h hsel with hmode <;> cases h
    all_goals exact ⟨rfl, by simp [encode, packWord_eq_iff, hrsv, hopcode, hop, hsel, hunused]⟩
  case h_8 => cases h

/-- Settles O19: `decode_encode`, by the fields of a packed word. -/
theorem decodeOfEncodeIsTheCommand : Obligations.DecodeOfEncodeIsTheCommand :=
  decode_encode

/-- Settles O20: `encode_of_decode`, by the opcodes of the decoder. -/
theorem encodeOfDecodeIsTheWord : Obligations.EncodeOfDecodeIsTheWord :=
  fun _ _ h => encode_of_decode h

/-- Settles O17: the decoder evaluated on the twelve words. -/
theorem tableOfEncodedExamplesDecodes : Obligations.TableOfEncodedExamplesDecodes := by
  unfold Obligations.TableOfEncodedExamplesDecodes
  decide

/-- Settles O21: `packWord_toNat` with the opcode and the unused fields as numbers. -/
theorem encodedWordsAreTheStatedNumbers : Obligations.EncodedWordsAreTheStatedNumbers := by
  refine ⟨fun e w h v0 v1 v2 => ?_, fun x y => ?_, fun x y v0 v1 v2 => ?_, fun x y ch => ?_,
    fun x y ch v => ?_, ?_, ?_, ?_⟩
  · simp [encode, packWord_toNat, append_enc_toNat]
  all_goals simp [encode, packWord_toNat]

end Sys2Proof

namespace Sys2Proof.Machine

/-! ## The legal words, R76, R77 -/

theorem legalWord_iff (w : CmdWord) :
    legalWord w = true ↔ legalCreate w = true ∨ legalGet w = true ∨ legalSet w = true ∨
      legalGetch w = true ∨ legalSetch w = true ∨ legalInfo w = true ∨ legalSerialize w = true := by
  simp only [legalWord, Bool.or_eq_true, or_assoc]

/-- The masks of R76 accept the word of every well-formed command. -/
theorem legalWord_encode (i : Instr) (h : i.wf = true) : legalWord (encode i) = true := by
  rw [legalWord_iff]
  cases i with
  | create enc x y v0 v1 v2 =>
    have henc : enc.toNat ≤ 4 := of_decide_eq_true h
    left
    rw [legalCreate_iff, ← selTop_eq_zero_iff, ← selEnc_toNat]
    simp [encode, selTop_append, selEnc_append, henc]
  | get x y => simp [encode, legalGet_iff]
  | set x y v0 v1 v2 => simp [encode, legalSet_iff]
  | getch x y ch => simp [encode, legalGetch_iff]
  | setch x y ch v => simp [encode, legalSetch_iff]
  | info => simp [encode, legalInfo_iff]
  | sert => simp [encode, legalSerialize_iff]
  | serb => simp [encode, legalSerialize_iff]

/-- The masks of R76 accept no other word: its fields are those of a command's word. -/
theorem exists_encode_of_legalWord {w : CmdWord} (h : legalWord w = true) :
    ∃ i : Instr, i.wf = true ∧ encode i = w := by
  rcases (legalWord_iff w).1 h with h | h | h | h | h | h | h
  · obtain ⟨⟨hrsv, htop, hop⟩, henc⟩ := (legalCreate_iff w).1 h
    rw [← selTop_eq_zero_iff] at htop
    rw [← selEnc_toNat] at henc
    exact ⟨.create (selEnc (fieldSEL w)) (fieldA w) (fieldB w) (fieldV0 w) (fieldV1 w) (fieldV2 w),
      decide_eq_true henc, by simp [encode, packWord_eq_iff, hrsv, hop, append_selEnc htop]⟩
  · exact ⟨.get (fieldA w) (fieldB w), rfl, by
      simp [encode, packWord_eq_iff, (legalGet_iff w).1 h]⟩
  · exact ⟨.set (fieldA w) (fieldB w) (fieldV0 w) (fieldV1 w) (fieldV2 w), rfl, by
      simp [encode, packWord_eq_iff, (legalSet_iff w).1 h]⟩
  · exact ⟨.getch (fieldA w) (fieldB w) (fieldSEL w), rfl, by
      simp [encode, packWord_eq_iff, (legalGetch_iff w).1 h]⟩
  · exact ⟨.setch (fieldA w) (fieldB w) (fieldSEL w) (fieldV0 w), rfl, by
      simp [encode, packWord_eq_iff, (legalSetch_iff w).1 h]⟩
  · exact ⟨.info, rfl, by simp [encode, packWord_eq_iff, (legalInfo_iff w).1 h]⟩
  · obtain ⟨hrsv, hv2, hv1, hv0, hb, ha, hsel | hsel, hop⟩ := (legalSerialize_iff w).1 h
    · exact ⟨.sert, rfl, by simp [encode, packWord_eq_iff, *]⟩
    · exact ⟨.serb, rfl, by simp [encode, packWord_eq_iff, *]⟩

/-- The legal words are the words that decode. -/
theorem decode_isOk_iff (w : CmdWord) : (∃ i, decode w = .ok i) ↔ legalWord w = true := by
  constructor
  · rintro ⟨i, hdec⟩
    obtain ⟨hwf, rfl⟩ := encode_of_decode hdec
    exact legalWord_encode i hwf
  · intro h
    obtain ⟨i, hwf, rfl⟩ := exists_encode_of_legalWord h
    exact ⟨i, decode_encode i hwf⟩

/-- An illegal word answers ERR_ILLEGAL and changes nothing else (60_exceptions R205). -/
theorem perform_illegal {w : CmdWord} (h : legalWord w = false) (s : State) :
    perform w s = .next { s with rspq := some (rspNumber 5 0) } := by
  cases hdec : decode w with
  | ok i => exact absurd ((decode_isOk_iff w).1 ⟨i, hdec⟩) (by simp [h])
  | error r =>
    simp only [perform, hdec]
    exact raiseErr_zero .errIllegal s

/-- Settles O18: `decode_isOk_iff`, and `perform_illegal` for every other word. -/
theorem decodeAcceptsExactlyTheLegalWords : Obligations.DecodeAcceptsExactlyTheLegalWords :=
  fun w => ⟨decode_isOk_iff w, fun h s => perform_illegal h s⟩

/-- Settles O24: a selector above 4 names no encoding. -/
theorem createWithAReservedSelectorIsIllegal :
    Obligations.CreateWithAReservedSelectorIsIllegal := by
  intro s c w h f0 f1 f2 hc
  simp only [RespondsOnly, exec, execCreate, (Enc.ofCode?_eq_none c).2 hc]
  exact raiseErr_zero .errIllegal s

/-! ## The response word, R80, R81 -/

theorem responseWord_status (st : Status) (d : RspData) :
    (responseWord st d).extractLsb' 0 4 = st.code := by
  apply BitVec.eq_of_toNat_eq
  rw [BitVec.extractLsb'_toNat, Nat.shiftRight_zero]
  exact rspStatus_responseWord st d

theorem responseWord_data (st : Status) (d : RspData) :
    (responseWord st d).extractLsb' 8 56 = d := by
  apply BitVec.eq_of_toNat_eq
  have hs := st.code.isLt
  have hd := d.isLt
  rw [BitVec.extractLsb'_toNat, responseWord_toNat, Nat.shiftRight_eq_div_pow]
  omega

/-- Settles O22: the three fields of `responseWord`, and `responseWord_toNat`. -/
theorem responseWordHasTheStatedFields : Obligations.ResponseWordHasTheStatedFields :=
  fun st d => ⟨responseWord_status st d, responseWord_rsvr st d, responseWord_data st d,
    responseWord_toNat st d⟩

/-- A word that the block makes as a response. -/
abbrev IsResponse (r : RspWord) : Prop := ∃ st d, r = responseWord st d

/-- Every response word in the block or at the host is one the block made. -/
structure OnlyResponses (s : State) : Prop where
  waiting : ∀ r ∈ s.rspq, IsResponse r
  held : ∀ r ∈ s.held, IsResponse r
  received : ∀ r ∈ s.hostGot, IsResponse r

section
variable {s t : State}

theorem isResponse_of_mem_some {st : Status} {d : RspData} :
    ∀ r ∈ some (responseWord st d), IsResponse r := by
  rintro r hr
  exact ⟨st, d, (Option.mem_some.1 hr).symm⟩

theorem OnlyResponses.setResponse (h : OnlyResponses s) (st : Status) (d : RspData) :
    OnlyResponses (s.setResponse st d) :=
  ⟨isResponse_of_mem_some, h.held, h.received⟩

theorem OnlyResponses.beginStream (h : OnlyResponses s) (bytes : List Byte) :
    OnlyResponses (s.beginStream bytes) :=
  ⟨h.waiting, isResponse_of_mem_some, h.received⟩

theorem OnlyResponses.storePixel (h : OnlyResponses s) (k : Nat) (p : Pixel) :
    OnlyResponses (s.storePixel k p) :=
  ⟨h.waiting, h.held, h.received⟩

theorem OnlyResponses.newBuffer (h : OnlyResponses s) (e : Enc) (w ht : Half) (p : Pixel) :
    OnlyResponses (s.newBuffer e w ht p) :=
  ⟨h.waiting, h.held, h.received⟩

theorem OnlyResponses.exec (h : OnlyResponses s) {i : Instr} (he : exec i s = .next t) :
    OnlyResponses t := by
  rcases exec_next i s t he with ⟨st, d, rfl⟩ | ⟨-, k, p, q, -, -, rfl⟩ |
    ⟨e, w, ht, p, -, -, -, -, rfl⟩ | ⟨-, m, rfl⟩
  · exact h.setResponse st d
  · exact (h.storePixel k p).setResponse _ _
  · exact (h.newBuffer e w ht p).setResponse _ _
  · exact h.beginStream _

theorem OnlyResponses.perform (h : OnlyResponses s) {w : CmdWord}
    (hp : perform w s = .next t) : OnlyResponses t := by
  rcases perform_next w s t hp with ⟨i, -, hi⟩ | ⟨r, -, rfl⟩
  · exact h.exec hi
  · exact h.setResponse _ _

/-- The last byte moves the held response on; no other byte touches a response. -/
theorem OnlyResponses.sendByte (h : OnlyResponses s) (o : OutTransfer) :
    OnlyResponses (s.sendByte o) := by
  refine ⟨?_, ?_, h.received⟩
  · rw [State.sendByte_rspq]
    split
    · exact h.held
    · exact h.waiting
  · rw [State.sendByte_held]
    split
    · simp
    · exact h.held

theorem OnlyResponses.sendRsp (h : OnlyResponses s) {r : RspWord} (hr : s.rspq = some r) :
    OnlyResponses (s.sendRsp r) := by
  refine ⟨by simp, h.held, fun r' hr' => ?_⟩
  rw [State.sendRsp_hostGot, List.mem_append, List.mem_singleton] at hr'
  rcases hr' with hr' | rfl
  · exact h.received r' hr'
  · exact h.waiting r' hr

theorem OnlyResponses.step (h : OnlyResponses s) (hs : step s = .next t) : OnlyResponses t := by
  have hadvance : OnlyResponses s.advance := ⟨h.waiting, h.held, h.received⟩
  rcases step_next hs with ⟨-, rfl⟩ | ⟨-, -, w, -, hperform⟩ | ⟨-, b, rest, -, rfl⟩ |
    ⟨-, r, hrsp, rfl⟩ | ⟨-, rfl⟩
  · exact ⟨by simp, by simp, h.received⟩
  · exact OnlyResponses.perform (s := s.advance.takeCommand)
      ⟨h.waiting, h.held, h.received⟩ hperform
  · exact hadvance.sendByte _
  · exact hadvance.sendRsp hrsp
  · exact hadvance

end

theorem OnlyResponses.start (c : Config) (ws : List CmdWord) (ts : List Tick) :
    OnlyResponses (State.start c ws ts) :=
  ⟨by simp [State.start, State.reset], by simp [State.start, State.reset],
    by simp [State.start, State.reset]⟩

/-- Settles O16: every response received is a `responseWord`, in every run. -/
theorem everyResponseHasALegalStatus : Obligations.EveryResponseHasALegalStatus := by
  intro c ws ts n t hrun r hr
  have hresponses : OnlyResponses t :=
    run_keeps OnlyResponses (fun _ _ h hs => h.step hs) n _ t (.start c ws ts) hrun
  obtain ⟨st, d, rfl⟩ := hresponses.received r hr
  exact ⟨(rspStatus_responseWord st d).trans_le st.code_le, responseWord_rsvr st d⟩

/-! ## The characters of a header and a text body, R86 -/

/-- One of the characters 0 to 9. -/
abbrev IsDigit (b : Byte) : Prop := 0x30 ≤ b.toNat ∧ b.toNat ≤ 0x39

theorem isDigit_chDigit {d : Nat} (h : d < 10) : IsDigit (chDigit d) := by
  rw [IsDigit, chDigit, BitVec.toNat_ofNat]
  omega

theorem isDigit_of_mem_dec (v : Nat) : ∀ b ∈ dec v, IsDigit b := by
  induction v using Nat.strong_induction_on with
  | _ v ih =>
    intro b hb
    by_cases hv : v < 10
    · rw [dec_digit v hv, List.mem_singleton] at hb
      rw [hb]
      exact isDigit_chDigit hv
    · rw [dec_step v (by omega), List.mem_append, List.mem_singleton] at hb
      rcases hb with hb | rfl
      · exact ih (v / 10) (by omega) b hb
      · exact isDigit_chDigit (by omega)

theorem mem_maxLine {e : Enc} {b : Byte} (h : b ∈ maxLine e) : b = chNewline ∨ IsDigit b := by
  unfold maxLine at h
  split at h
  · cases h
  · rw [List.mem_append, List.mem_singleton] at h
    exact h.symm.imp_right (isDigit_of_mem_dec _ b)

theorem mem_header {m : Mode} {e : Enc} {w h : Nat} {b : Byte} (hb : b ∈ header m e w h) :
    b = chP ∨ b = chSpace ∨ b = chNewline ∨ IsDigit b := by
  simp only [header, List.mem_append, List.mem_singleton] at hb
  rcases hb with ((((((hP | hid) | hspace) | hw) | hspace) | hh) | hnewline) | hmax
  · exact .inl hP
  · exact .inr (.inr (.inr (isDigit_of_mem_dec _ b hid)))
  · exact .inr (.inl hspace)
  · exact .inr (.inr (.inr (isDigit_of_mem_dec _ b hw)))
  · exact .inr (.inl hspace)
  · exact .inr (.inr (.inr (isDigit_of_mem_dec _ b hh)))
  · exact .inr (.inr (.inl hnewline))
  · exact .inr (.inr (mem_maxLine hmax))

theorem mem_pixelText {e : Enc} {p : Pixel} {b : Byte} (h : b ∈ pixelText e p) :
    b = chSpace ∨ IsDigit b := by
  rw [pixelText, List.mem_flatMap] at h
  obtain ⟨c, -, hc⟩ := h
  rw [List.mem_append, List.mem_singleton] at hc
  exact hc.symm.imp_right (isDigit_of_mem_dec _ b)

/-- A byte of the pixel loops is a byte of one pixel. -/
theorem mem_rowMajor {pix : Memory} {w h : Nat} {f : Pixel → List Byte} {b : Byte}
    (hb : b ∈ rowMajor pix w h f) : ∃ p, b ∈ f p := by
  simp only [rowMajor, List.mem_flatMap] at hb
  obtain ⟨y, -, x, -, hx⟩ := hb
  exact ⟨_, hx⟩

/-- Settles O47: the parts of a header, and the text of each pixel. -/
theorem headerAndTextBodyUseTheStatedCharacters :
    Obligations.HeaderAndTextBodyUseTheStatedCharacters := by
  refine ⟨fun m e w h b hb => mem_header hb, fun e pix w h b hb => ?_⟩
  obtain ⟨p, hp⟩ := mem_rowMajor hb
  exact mem_pixelText hp

end Sys2Proof.Machine

/-! PROOFS. The statements of 40_pixel_model: the trait table, the answers of GETCH and SETCH, and the frame
of a pixel write. -/

namespace Sys2Proof.Machine

/-! ## The trait table, R100 to R102 -/

theorem Enc.code_injective : Function.Injective Enc.code := by
  intro e e' h
  rw [← Option.some_inj, ← e.ofCode?_code, h, e'.ofCode?_code]

theorem Enc.exists_code_iff (c : BitVec 3) : (∃ e : Enc, e.code = c) ↔ c.toNat ≤ 4 := by
  constructor
  · rintro ⟨e, rfl⟩
    exact e.code_le
  · intro hc
    cases he : Enc.ofCode? c with
    | none => exact absurd ((Enc.ofCode?_eq_none c).1 he) (not_lt.2 hc)
    | some e => exact ⟨e, ((Enc.ofCode?_eq_some c e).1 he).symm⟩

/-- Settles O44: the rows of the table, one for each encoding, and `Enc.ofCode?` as the inverse of the
codes. -/
theorem traitsAreTheStatedTable : Obligations.TraitsAreTheStatedTable := by
  refine ⟨fun e => ?_, Enc.exists_code_iff, fun _ _ h => Enc.code_injective h, fun e => ?_⟩
  · cases e <;> decide
  · cases e <;> rfl

/-! ## A word that its opcode's mask refuses, R76, R77 -/

/-- Where `legal` accepts the word of every command with the opcode `op`, a word of that opcode that it
refuses is no command's word. -/
theorem malformedAnswersIllegal {op : BitVec 4} {legal : CmdWord → Bool} (s : State)
    (h : ∀ i : Instr, i.wf = true → fieldOP (encode i) = op → legal (encode i) = true) :
    MalformedAnswersIllegal op legal s := by
  intro w hop hlegal
  refine perform_illegal (Bool.eq_false_iff.2 fun hw => ?_) s
  obtain ⟨i, hwf, rfl⟩ := exists_encode_of_legalWord hw
  rw [h i hwf hop] at hlegal
  cases hlegal

theorem malformedAnswersIllegal_getch (s : State) : MalformedAnswersIllegal 4 legalGetch s := by
  refine malformedAnswersIllegal s fun i _ hop => ?_
  cases i with
  | getch x y ch => simp [encode, legalGetch_iff]
  | _ => simp [encode] at hop

theorem malformedAnswersIllegal_setch (s : State) : MalformedAnswersIllegal 5 legalSetch s := by
  refine malformedAnswersIllegal s fun i _ hop => ?_
  cases i with
  | setch x y ch v => simp [encode, legalSetch_iff]
  | _ => simp [encode] at hop

/-! ## The channels of a pixel, R104 -/

theorem exists_channel?_of_lt {e : Enc} {ch : BitVec 4} (h : ch.toNat < e.componentCount) :
    ∃ c : Fin 3, channel? e ch = some c ∧ ch.toNat = c.val ∧ c.val < e.componentCount := by
  cases hc : channel? e ch with
  | none => exact absurd ((channel?_eq_none e ch).1 hc) (not_le.2 h)
  | some c => exact ⟨c, rfl, (channel?_eq_some e ch c).1 hc⟩

theorem Pixel.getElem?_chan (p : Pixel) (c : Fin 3) : [p.c0, p.c1, p.c2][c.val]? = some (p.chan c) := by
  fin_cases c <;> rfl

theorem Pixel.withChan_eq (p : Pixel) {c : Fin 3} {ch : BitVec 4} (h : ch.toNat = c.val) (v : Half) :
    p.withChan c v =
      ⟨if ch = 0 then v else p.c0, if ch = 1 then v else p.c1, if ch = 2 then v else p.c2⟩ := by
  obtain rfl : ch = BitVec.ofNat 4 c.val := by rw [← h, BitVec.ofNat_toNat, BitVec.setWidth_eq]
  fin_cases c <;> rfl

/-! ## The answers of the access commands, R107, R108 -/

theorem getElem?_of_read {s : State} {x y : Half} {p : Pixel}
    (h : s.pix.read (pixelIndex s x y) = some p) :
    s.pix.toList[y.toNat * s.width.toNat + x.toNat]? = some p :=
  (s.pix.read_eq_toList (pixelIndex s x y)).symm.trans h

/-- ERR_OUT_OF_RANGE reports both flags at once (60_exceptions R202). -/
theorem withCoords_errOutOfRange (s : State) (hl : s.live = true) {x y : Half}
    (ho : s.width.toNat ≤ x.toNat ∨ s.height.toNat ≤ y.toNat)
    (k : Host.Outcome State Fault Refusal) :
    withCoords s x y k = .next { s with
      rspq := some (rspNumber 2 ((if s.width.toNat ≤ x.toNat then 1 else 0) +
        (if s.height.toNat ≤ y.toNat then 2 else 0))) } := by
  rw [withCoords_out s x y k hl ho, raiseErr_eq, oorDetail_eq, setResponse_eq]
  · rfl
  · split_ifs <;> decide

section
variable {s : State} {x y : Half} {ch : BitVec 4} (hl : s.live = true)
  (hx : x.toNat < s.width.toNat) (hy : y.toNat < s.height.toNat)
include hl hx hy

theorem respondsOnly_errInvalidChannel (hch : s.enc.componentCount ≤ ch.toNat) (v : Half) :
    RespondsOnly (.getch x y ch) s 3 0 ∧ RespondsOnly (.setch x y ch v) s 3 0 := by
  have hnone : channel? s.enc ch = none := (channel?_eq_none s.enc ch).2 hch
  constructor
  · rw [RespondsOnly, exec, execGetch, withCoords_in s x y _ hl hx hy, hnone]
    exact raiseErr_zero .errInvalidChannel s
  · rw [RespondsOnly, exec, execSetch, withCoords_in s x y _ hl hx hy, hnone]
    exact raiseErr_zero .errInvalidChannel s

theorem respondsOnly_getch {c : Fin 3} {p : Pixel} (hc : channel? s.enc ch = some c)
    (hp : s.pix.read (pixelIndex s x y) = some p) :
    RespondsOnly (.getch x y ch) s 0 (p.chan c).toNat := by
  have hfits : (p.chan c).toNat < 2 ^ 56 := (p.chan c).isLt.trans (by decide)
  rw [RespondsOnly, exec, execGetch, withCoords_in s x y _ hl hx hy, hc]
  exact (withPixel_some s x y _ p hp).trans (congrArg _ (setResponse_eq s .ok _ hfits))

theorem respondsOnly_errBadValue_setch {v : Half} (hch : ch.toNat < s.enc.componentCount)
    (hv : s.enc.chanMax < v.toNat) : RespondsOnly (.setch x y ch v) s 6 0 := by
  obtain ⟨c, hc, -⟩ := exists_channel?_of_lt hch
  have hbad : chanOK s.enc v = false := decide_eq_false (not_le.2 hv)
  simp only [RespondsOnly, exec, execSetch, withCoords_in s x y _ hl hx hy, hc, hbad]
  exact raiseErr_zero .errBadValue s

theorem exec_setch_write {c : Fin 3} {p : Pixel} {v : Half} (hc : channel? s.enc ch = some c)
    (hv : v.toNat ≤ s.enc.chanMax) (hp : s.pix.read (pixelIndex s x y) = some p) :
    exec (.setch x y ch v) s = .next { s with
      pix := s.pix.write (pixelIndex s x y) (p.withChan c v)
      rspq := some (rspNumber 0 0) } := by
  have hok : chanOK s.enc v = true := decide_eq_true hv
  simp only [exec, execSetch, withCoords_in s x y _ hl hx hy, hc, hok, if_true]
  exact (withPixel_some s x y _ p hp).trans
    (congrArg _ (setResponse_eq (s.storePixel _ _) .ok 0 (by decide)))

end

/-- Settles O29: the checks in their order, then the channel of the entry that the invariant gives. -/
theorem getchAnswersTheChannel : Obligations.GetchAnswersTheChannel := by
  intro s x y ch
  refine ⟨fun hl => ?_, fun hl ho => withCoords_errOutOfRange s hl ho _, fun hl hx hy hch => ?_,
    fun hb hl hx hy hch => ?_, malformedAnswersIllegal_getch s⟩
  · obtain ⟨-, -, hgetch, -⟩ := respondsOnly_errNoBuffer s hl x y 0 0 0 ch
    exact hgetch
  · obtain ⟨hgetch, -⟩ := respondsOnly_errInvalidChannel hl hx hy hch 0
    exact hgetch
  · obtain ⟨p, hread, hlegal⟩ := hb.read_in hl hx hy
    obtain ⟨c, hc, hval, hlt⟩ := exists_channel?_of_lt hch
    obtain ⟨hmax, -⟩ := hlegal c
    refine ⟨p, p.chan c, getElem?_of_read hread, ?_, hmax hlt, respondsOnly_getch hl hx hy hc hread⟩
    rw [hval, p.getElem?_chan c]

/-- Settles O30: the checks in their order, then `withChan` on the entry that the invariant gives. -/
theorem setchWritesTheChannelOrRefuses : Obligations.SetchWritesTheChannelOrRefuses := by
  intro s x y ch v
  refine ⟨fun hl => ?_, fun hl ho => withCoords_errOutOfRange s hl ho _, fun hl hx hy hch => ?_,
    fun hl hx hy => respondsOnly_errBadValue_setch hl hx hy,
    fun hb hl hx hy hch hv => ?_, malformedAnswersIllegal_setch s⟩
  · obtain ⟨-, -, -, hsetch, -⟩ := respondsOnly_errNoBuffer s hl x y v 0 0 ch
    exact hsetch
  · obtain ⟨-, hsetch⟩ := respondsOnly_errInvalidChannel hl hx hy hch v
    exact hsetch
  · obtain ⟨p, hread, -⟩ := hb.read_in hl hx hy
    obtain ⟨c, hc, hval, -⟩ := exists_channel?_of_lt hch
    refine ⟨_, p, getElem?_of_read hread, exec_setch_write hl hx hy hc hv hread, ?_⟩
    rw [Memory.toList_write, p.withChan_eq hval, pixelIndex, idx]

/-! ## The frame of a pixel write, R106, R108 -/

/-- SET and SETCH respond, or write the entry they name and respond. -/
theorem pixelWrite_next {s t : State} {x y : Half} {i : Instr}
    (hi : (∃ v0 v1 v2, i = .set x y v0 v1 v2) ∨ (∃ ch v, i = .setch x y ch v))
    (h : exec i s = .next t) :
    (∃ st d, t = s.setResponse st d) ∨
      ∃ p, t = (s.storePixel (pixelIndex s x y) p).setResponse .ok 0 := by
  rcases hi with ⟨v0, v1, v2, rfl⟩ | ⟨ch, v, rfl⟩
  · rcases execSet_next x y v0 v1 v2 s t h with ⟨st, d, -, ht⟩ | ⟨-, -, -, -, -, ht⟩
    · exact .inl ⟨st, d, ht⟩
    · exact .inr ⟨_, ht⟩
  · rcases execSetch_next x y ch v s t h with ⟨st, d, -, ht⟩ | ⟨-, -, -, c, q, -, -, -, ht⟩
    · exact .inl ⟨st, d, ht⟩
    · exact .inr ⟨_, ht⟩

theorem Memory.read_write_ne (m : Memory) {i j : Nat} (h : j ≠ i) (p : Pixel) :
    (m.write i p).read j = m.read j := by
  rw [Memory.read_write, if_neg fun ⟨hij, _⟩ => h hij.symm]

/-- Settles O34: a response touches no entry, and the write only the one it names. -/
theorem pixelWritesChangeOnlyTheNamedEntry : Obligations.PixelWritesChangeOnlyTheNamedEntry := by
  intro s t x y i hi h
  rcases pixelWrite_next hi h with ⟨st, d, rfl⟩ | ⟨p, rfl⟩
  · exact ⟨rfl, rfl, fun _ _ => rfl⟩
  · exact ⟨rfl, s.pix.size_write _ p, fun j hj => s.pix.read_write_ne hj p⟩

end Sys2Proof.Machine

/-! PROOFS. The statements of 41_image_buffer: the outcomes of CREATE, GET, SET and INFO, the frame of
CREATE, and a written pixel read back past the words that do not write it. -/

namespace Sys2Proof.Machine

/-! ## Words that their opcode's mask refuses, R76, R77 -/

/-- A legal word is one of its own opcode's legal words. -/
theorem legalOfOpcode_of_legalWord {w : CmdWord} (h : legalWord w = true) :
    (fieldOP w = 1 → legalCreate w = true) ∧ (fieldOP w = 2 → legalGet w = true) ∧
      (fieldOP w = 3 → legalSet w = true) ∧ (fieldOP w = 6 → legalInfo w = true) := by
  rcases (legalWord_iff w).1 h with h | h | h | h | h | h | h
  · simp [h, (legalCreate_iff w).1 h]
  · simp [h, (legalGet_iff w).1 h]
  · simp [h, (legalSet_iff w).1 h]
  · simp [(legalGetch_iff w).1 h]
  · simp [(legalSetch_iff w).1 h]
  · simp [h, (legalInfo_iff w).1 h]
  · simp [(legalSerialize_iff w).1 h]

theorem malformedAnswersIllegal_imageBuffer (s : State) :
    MalformedAnswersIllegal 1 legalCreate s ∧ MalformedAnswersIllegal 2 legalGet s ∧
      MalformedAnswersIllegal 3 legalSet s ∧ MalformedAnswersIllegal 6 legalInfo s := by
  have hlegal := fun (i : Instr) (hwf : i.wf = true) =>
    legalOfOpcode_of_legalWord (legalWord_encode i hwf)
  refine ⟨malformedAnswersIllegal s fun i hwf => ?_, malformedAnswersIllegal s fun i hwf => ?_,
    malformedAnswersIllegal s fun i hwf => ?_, malformedAnswersIllegal s fun i hwf => ?_⟩
  · obtain ⟨hcreate, -⟩ := hlegal i hwf
    exact hcreate
  · obtain ⟨-, hget, -⟩ := hlegal i hwf
    exact hget
  · obtain ⟨-, -, hset, -⟩ := hlegal i hwf
    exact hset
  · obtain ⟨-, -, -, hinfo⟩ := hlegal i hwf
    exact hinfo

/-! ## CREATE, R120 -/

/-- CREATE of a legal selector: the three checks in their order, and the new buffer. -/
theorem execCreate_code (e : Enc) (w h v0 v1 v2 : Half) (s : State) :
    execCreate e.code w h v0 v1 v2 s =
      if w = 0 ∨ h = 0 then raiseErr .errInvalidArgument (argDetail w h) s
      else if ¬ PixelLegal e ⟨v0, v1, v2⟩ then raiseErr .errBadValue 0 s
      else if s.cfg.pixCapacity < w.toNat * h.toNat then raiseErr .errCapacity 0 s
      else respond .ok 0 (s.newBuffer e w h ⟨v0, v1, v2⟩) := by
  simp only [execCreate, Enc.ofCode?_code, Bool.or_eq_true, beq_iff_eq, Bool.not_eq_true',
    ← Bool.not_eq_true, valueOK_iff]

/-- ERR_INVALID_ARGUMENT reports both dimension checks at once (60_exceptions R201). -/
theorem raiseErr_errInvalidArgument (w h : Half) (s : State) :
    raiseErr .errInvalidArgument (argDetail w h) s = .next { s with
      rspq := some (rspNumber 1 ((if w = 0 then 1 else 0) + (if h = 0 then 2 else 0))) } := by
  rw [raiseErr_eq, argDetail_eq, setResponse_eq]
  · rfl
  · split_ifs <;> decide

/-- Settles O23: the checks of `execCreate_code` one by one, and the entries of a filled store. -/
theorem createBuildsTheBufferOrRefuses : Obligations.CreateBuildsTheBufferOrRefuses := by
  intro s e w h f0 f1 f2
  simp only [RespondsOnly, exec, execCreate_code]
  obtain ⟨hmalformed, -⟩ := malformedAnswersIllegal_imageBuffer s
  refine ⟨fun hz => ?_, fun hw hh hbad => ?_, fun hw hh hlegal hcap => ?_,
    fun hw hh hlegal hcap => ⟨Memory.fill (w.toNat * h.toNat) ⟨f0, f1, f2⟩, ?_,
      Memory.toList_fill _ _⟩, hmalformed⟩
  · rw [if_pos hz]
    exact raiseErr_errInvalidArgument w h s
  · rw [if_neg (not_or.2 ⟨hw, hh⟩), if_pos hbad]
    exact raiseErr_zero .errBadValue s
  · rw [if_neg (not_or.2 ⟨hw, hh⟩), if_neg (not_not.2 hlegal), if_pos hcap]
    exact raiseErr_zero .errCapacity s
  · rw [if_neg (not_or.2 ⟨hw, hh⟩), if_neg (not_not.2 hlegal), if_neg (not_lt.2 hcap)]
    exact congrArg Host.Outcome.next
      (setResponse_eq (s.newBuffer e w h ⟨f0, f1, f2⟩) .ok 0 (by decide))

/-- Settles O35: CREATE responds, or makes a new buffer, which is live, and responds. -/
theorem createChangesOnlyTheBuffer : Obligations.CreateChangesOnlyTheBuffer := by
  intro s t c w h f0 f1 f2 he
  rcases execCreate_next c w h f0 f1 f2 s t he with ⟨st, d, -, rfl⟩ | ⟨e, -, -, -, -, -, rfl⟩
  · exact ⟨rfl, id⟩
  · exact ⟨rfl, fun hdead => by cases hdead⟩

/-! ## GET and SET, R122, R124 -/

section
variable {s : State} {x y : Half} (hl : s.live = true) (hx : x.toNat < s.width.toNat)
  (hy : y.toNat < s.height.toNat)
include hl hx hy

theorem respondsOnly_get {p : Pixel} (hp : s.pix.read (pixelIndex s x y) = some p) :
    RespondsOnly (.get x y) s 0 (p.c0.toNat + p.c1.toNat * 2 ^ 16 + p.c2.toNat * 2 ^ 32) := by
  have hfits : p.c0.toNat + p.c1.toNat * 2 ^ 16 + p.c2.toNat * 2 ^ 32 < 2 ^ 56 := by
    have h0 := p.c0.isLt
    have h1 := p.c1.isLt
    have h2 := p.c2.isLt
    omega
  rw [RespondsOnly, exec, execGet, withCoords_in s x y _ hl hx hy]
  exact (withPixel_some s x y _ p hp).trans (congrArg _ (setResponse_eq s .ok _ hfits))

theorem respondsOnly_errBadValue_set {v0 v1 v2 : Half} (hv : ¬ PixelLegal s.enc ⟨v0, v1, v2⟩) :
    RespondsOnly (.set x y v0 v1 v2) s 6 0 := by
  rw [RespondsOnly, exec, execSet, withCoords_in s x y _ hl hx hy, if_neg (mt (valueOK_iff _ _).1 hv)]
  exact raiseErr_zero .errBadValue s

theorem exec_set_write {v0 v1 v2 : Half} {q : Pixel} (hv : PixelLegal s.enc ⟨v0, v1, v2⟩)
    (hq : s.pix.read (pixelIndex s x y) = some q) :
    exec (.set x y v0 v1 v2) s = .next { s with
      pix := s.pix.write (pixelIndex s x y) ⟨v0, v1, v2⟩
      rspq := some (rspNumber 0 0) } := by
  rw [exec, execSet, withCoords_in s x y _ hl hx hy, if_pos ((valueOK_iff _ _).2 hv)]
  exact (withPixel_some s x y _ q hq).trans
    (congrArg _ (setResponse_eq (s.storePixel _ _) .ok 0 (by decide)))

end

/-- Settles O26: the checks in their order, then the entry that the invariant gives. -/
theorem getAnswersThePixel : Obligations.GetAnswersThePixel := by
  intro s x y
  obtain ⟨-, hmalformed, -⟩ := malformedAnswersIllegal_imageBuffer s
  refine ⟨fun hl => ?_, fun hl ho => withCoords_errOutOfRange s hl ho _, fun hb hl hx hy => ?_,
    hmalformed⟩
  · obtain ⟨hget, -⟩ := respondsOnly_errNoBuffer s hl x y 0 0 0 0
    exact hget
  · obtain ⟨p, hread, -⟩ := hb.read_in hl hx hy
    exact ⟨p, getElem?_of_read hread, respondsOnly_get hl hx hy hread⟩

/-- Settles O27: the checks in their order, then the write to the entry that the invariant gives. -/
theorem setWritesThePixelOrRefuses : Obligations.SetWritesThePixelOrRefuses := by
  intro s x y v0 v1 v2
  obtain ⟨-, -, hmalformed, -⟩ := malformedAnswersIllegal_imageBuffer s
  refine ⟨fun hl => ?_, fun hl ho => withCoords_errOutOfRange s hl ho _,
    fun hl hx hy hv => respondsOnly_errBadValue_set hl hx hy hv, fun hb hl hx hy hv => ?_,
    hmalformed⟩
  · obtain ⟨-, hset, -⟩ := respondsOnly_errNoBuffer s hl x y v0 v1 v2 0
    exact hset
  · obtain ⟨q, hread, -⟩ := hb.read_in hl hx hy
    exact ⟨_, exec_set_write hl hx hy hv hread, Memory.toList_write _ _ _⟩

/-! ## INFO, R126 -/

theorem respondsOnly_info (s : State) :
    RespondsOnly .info s 0 (s.width.toNat + s.height.toNat * 2 ^ 16 + s.enc.code.toNat * 2 ^ 32 +
      (if s.live then 1 else 0) * 2 ^ 35) := by
  have hwidth := s.width.isLt
  have hheight := s.height.isLt
  have hcode := s.enc.code_le
  have hfits : s.width.toNat + s.height.toNat * 2 ^ 16 + s.enc.code.toNat * 2 ^ 32 +
      (if s.live then 1 else 0) * 2 ^ 35 < 2 ^ 56 := by split_ifs <;> omega
  exact congrArg Host.Outcome.next (setResponse_eq s .ok _ hfits)

/-- Settles O28: `respondsOnly_info`, where the elements of a dead buffer are all 0. -/
theorem infoAnswersTheDimensions : Obligations.InfoAnswersTheDimensions := by
  intro s
  obtain ⟨-, -, -, hmalformed⟩ := malformedAnswersIllegal_imageBuffer s
  refine ⟨respondsOnly_info s, fun hb hl => ?_, hmalformed⟩
  obtain ⟨henc, hwidth, hheight, -⟩ := hb.dead hl
  have hinfo := respondsOnly_info s
  rwa [henc, hwidth, hheight, hl] at hinfo

/-! ## A written pixel read back, R128 -/

theorem mayWrite_iff (w : CmdWord) (x y : Half) :
    mayWrite w x y = true ↔
      fieldOP w = 1 ∨ ((fieldOP w = 3 ∨ fieldOP w = 5) ∧ fieldA w = x ∧ fieldB w = y) := by
  have hopcode : ∀ op : BitVec 4, fieldOP w = op ↔ w.toNat % 16 = op.toNat := fun op => by
    rw [BitVec.toNat_eq, fieldOP_toNat]
    rfl
  simp only [mayWrite, hopcode, Bool.or_eq_true, Bool.and_eq_true, beq_iff_eq, and_assoc]
  rfl

/-- A word performed whole has an effect and completes, or it stops and leaves the state. -/
theorem atomically_cases (s : State) (w : CmdWord) :
    (∃ t, perform w s = .next t ∧ atomically s w = t.complete) ∨ atomically s w = s := by
  cases hp : perform w s with
  | next t => exact .inl ⟨t, rfl, atomically_of_next hp⟩
  | fault r => exact .inr (by rw [atomically, hp])
  | refused r => exact .inr (by rw [atomically, hp])

/-- `t` has the buffer of `s` but for its entries, and at `(x, y)` the same one. -/
structure KeepsPixel (x y : Half) (s t : State) : Prop where
  shape : SameShape s t
  entry : t.pix.read (pixelIndex s x y) = s.pix.read (pixelIndex s x y)

section
variable {s t u : State} {x y : Half}

theorem pixelIndex_congr (h : SameShape s t) : pixelIndex t x y = pixelIndex s x y := by
  obtain ⟨hwidth, -⟩ := h
  rw [pixelIndex, pixelIndex, hwidth]

theorem SameShape.trans (h : SameShape s t) (h' : SameShape t u) : SameShape s u := by
  obtain ⟨hw, hh, he, hl⟩ := h
  obtain ⟨hw', hh', he', hl'⟩ := h'
  exact ⟨hw'.trans hw, hh'.trans hh, he'.trans he, hl'.trans hl⟩

theorem KeepsPixel.refl : KeepsPixel x y s s := ⟨⟨rfl, rfl, rfl, rfl⟩, rfl⟩

theorem KeepsPixel.trans (h : KeepsPixel x y s t) (h' : KeepsPixel x y t u) :
    KeepsPixel x y s u := by
  refine ⟨h.shape.trans h'.shape, ?_⟩
  rw [← h.entry, ← pixelIndex_congr h.shape, h'.entry]

/-- A write to another pixel of the buffer. -/
theorem read_storePixel_ne {a b : Half} (hx : x.toNat < s.width.toNat)
    (ha : a.toNat < s.width.toNat) (hne : ¬ (a = x ∧ b = y)) (p : Pixel) :
    (s.storePixel (pixelIndex s a b) p).pix.read (pixelIndex s x y) =
      s.pix.read (pixelIndex s x y) := by
  refine s.pix.read_write_ne (fun hidx => hne ?_) p
  obtain ⟨hxa, hyb⟩ := idx_inj hx ha hidx
  exact ⟨BitVec.eq_of_toNat_eq hxa.symm, BitVec.eq_of_toNat_eq hyb.symm⟩

/-- A command whose word does not write the pixel leaves it as it was. -/
theorem exec_read_of_not_mayWrite {i : Instr} (hx : x.toNat < s.width.toNat)
    (hi : mayWrite (encode i) x y = false) (he : exec i s = .next t) :
    t.pix.read (pixelIndex s x y) = s.pix.read (pixelIndex s x y) := by
  obtain ⟨-, -, -, -, hreading⟩ := readingCommandsWriteOnlyBookkeeping
  rw [← Bool.not_eq_true, mayWrite_iff] at hi
  cases i with
  | create c w h v0 v1 v2 => exact absurd (.inl (by simp [encode])) hi
  | set a b v0 v1 v2 =>
    have hne : ¬ (a = x ∧ b = y) := by simpa [encode] using hi
    rcases execSet_next a b v0 v1 v2 s t he with ⟨st, d, -, rfl⟩ | ⟨-, ha, -, -, -, rfl⟩
    · rfl
    · exact read_storePixel_ne hx ha hne _
  | setch a b ch v =>
    have hne : ¬ (a = x ∧ b = y) := by simpa [encode] using hi
    rcases execSetch_next a b ch v s t he with ⟨st, d, -, rfl⟩ | ⟨-, ha, -, c, q, -, -, -, rfl⟩
    · rfl
    · exact read_storePixel_ne hx ha hne _
  | get a b => exact hreading s t _ (.inl ⟨a, b, rfl⟩) he _
  | getch a b ch => exact hreading s t _ (.inr (.inl ⟨a, b, ch, rfl⟩)) he _
  | info => exact hreading s t _ (.inr (.inr (.inl rfl))) he _
  | sert => exact hreading s t _ (.inr (.inr (.inr (.inl rfl)))) he _
  | serb => exact hreading s t _ (.inr (.inr (.inr (.inr rfl)))) he _

theorem perform_keepsPixel {w : CmdWord} (hx : x.toNat < s.width.toNat)
    (hw : mayWrite w x y = false) (hp : perform w s = .next t) : KeepsPixel x y s t := by
  constructor
  · refine (perform_sameShape_or_create hp).resolve_right ?_
    rintro ⟨hop, -⟩
    simp [mayWrite, hop] at hw
  · rcases perform_next w s t hp with ⟨i, hdec, hi⟩ | ⟨r, -, rfl⟩
    · obtain ⟨-, rfl⟩ := encode_of_decode hdec
      exact exec_read_of_not_mayWrite hx hw hi
    · rfl

theorem atomically_keepsPixel {w : CmdWord} (hx : x.toNat < s.width.toNat)
    (hw : mayWrite w x y = false) : KeepsPixel x y s (atomically s w) := by
  rcases atomically_cases s w with ⟨t, hp, hcomplete⟩ | hsame
  · obtain ⟨hshape, hentry⟩ := perform_keepsPixel hx hw hp
    rw [hcomplete]
    exact ⟨hshape, hentry⟩
  · rw [hsame]
    exact .refl

theorem foldl_atomically_keepsPixel (ws : List CmdWord) : ∀ s : State,
    x.toNat < s.width.toNat → (∀ w ∈ ws, mayWrite w x y = false) →
    KeepsPixel x y s (ws.foldl atomically s) := by
  induction ws with
  | nil => exact fun s _ _ => .refl
  | cons w ws ih =>
    intro s hx hws
    rw [List.forall_mem_cons] at hws
    obtain ⟨hw, hws⟩ := hws
    have hfirst := atomically_keepsPixel hx hw
    obtain ⟨hwidth, -⟩ := hfirst.shape
    exact hfirst.trans (ih _ (by rwa [hwidth]) hws)

/-- After a command that writes `p` at `(x, y)` and words that do not write there, `p` is there. -/
theorem read_after_write {i : Instr} (hwf : i.wf = true) {p q : Pixel} {r : Option RspWord}
    (hx : x.toNat < s.width.toNat) (hq : s.pix.read (pixelIndex s x y) = some q)
    (he : exec i s = .next { s with pix := s.pix.write (pixelIndex s x y) p, rspq := r })
    {ws : List CmdWord} (hws : ∀ w ∈ ws, mayWrite w x y = false)
    (ht : ws.foldl atomically (atomically s (encode i)) = t) :
    SameShape s t ∧ t.pix.read (pixelIndex t x y) = some p := by
  have hwrite := atomically_of_next ((perform_of_decode (decode_encode i hwf) s).trans he)
  have hkept := foldl_atomically_keepsPixel ws (atomically s (encode i))
    (by rw [hwrite]; exact hx) hws
  rw [ht, hwrite] at hkept
  refine ⟨hkept.shape, ?_⟩
  rw [pixelIndex_congr hkept.shape]
  exact hkept.entry.trans (Memory.read_write_same hq p)

/-- SET and SETCH of another pixel do not write this one. -/
theorem not_mayWrite_of_ne {a b : Half} (hne : x ≠ a ∨ y ≠ b) (v0 v1 v2 : Half) (ch : BitVec 4) :
    mayWrite (encode (.set a b v0 v1 v2)) x y = false ∧
      mayWrite (encode (.setch a b ch v0)) x y = false := by
  have hne' : ¬ (a = x ∧ b = y) := by
    rintro ⟨rfl, rfl⟩
    exact hne.elim (absurd rfl) (absurd rfl)
  constructor
  · rw [← Bool.not_eq_true, mayWrite_iff]
    simpa [encode] using hne'
  · rw [← Bool.not_eq_true, mayWrite_iff]
    simpa [encode] using hne'

theorem respondsOnly_get_after_set (hb : BufferInv s) (hl : s.live = true)
    (hx : x.toNat < s.width.toNat) (hy : y.toNat < s.height.toNat) {ws : List CmdWord}
    (hws : ∀ w ∈ ws, mayWrite w x y = false) {v0 v1 v2 : Half}
    (hv : PixelLegal s.enc ⟨v0, v1, v2⟩) :
    RespondsOnly (.get x y) (ws.foldl atomically (atomically s (encode (.set x y v0 v1 v2)))) 0
      (v0.toNat + v1.toNat * 2 ^ 16 + v2.toNat * 2 ^ 32) := by
  obtain ⟨q, hq, -⟩ := hb.read_in hl hx hy
  obtain ⟨⟨hwidth, hheight, -, hlive⟩, hread⟩ :=
    read_after_write rfl hx hq (exec_set_write hl hx hy hv hq) hws rfl
  exact respondsOnly_get (p := ⟨v0, v1, v2⟩) (hlive.trans hl) (by rwa [hwidth]) (by rwa [hheight])
    hread

theorem respondsOnly_getch_after_setch (hb : BufferInv s) (hl : s.live = true)
    (hx : x.toNat < s.width.toNat) (hy : y.toNat < s.height.toNat) {ws : List CmdWord}
    (hws : ∀ w ∈ ws, mayWrite w x y = false) {ch : BitVec 4} {v : Half}
    (hch : ch.toNat < s.enc.componentCount) (hv : v.toNat ≤ s.enc.chanMax) :
    RespondsOnly (.getch x y ch) (ws.foldl atomically (atomically s (encode (.setch x y ch v)))) 0
      v.toNat := by
  obtain ⟨q, hq, -⟩ := hb.read_in hl hx hy
  obtain ⟨c, hc, -⟩ := exists_channel?_of_lt hch
  obtain ⟨⟨hwidth, hheight, henc, hlive⟩, hread⟩ :=
    read_after_write rfl hx hq (exec_setch_write hl hx hy hc hv hq) hws rfl
  have hget := respondsOnly_getch (hlive.trans hl) (by rwa [hwidth]) (by rwa [hheight])
    (by rwa [henc]) hread
  rwa [Pixel.chan_withChan, if_pos rfl] at hget

end

/-- Settles O40: `read_after_write` for the pixel that is written, `atomically_keepsPixel` for every
other. -/
theorem writtenValueIsReadBack : Obligations.WrittenValueIsReadBack := by
  intro s x y ws hb _ hl
  refine ⟨fun hx hy hws => ⟨fun v0 v1 v2 hv => respondsOnly_get_after_set hb hl hx hy hws hv,
      fun ch v hch hv => respondsOnly_getch_after_setch hb hl hx hy hws hch hv⟩,
    fun ho v0 v1 v2 => ⟨_, withCoords_errOutOfRange s hl ho _, withCoords_errOutOfRange s hl ho _⟩,
    fun a b v0 v1 v2 ha _ _ _ hne => ⟨?_, fun ch v => ?_⟩⟩
  · obtain ⟨hset, -⟩ := not_mayWrite_of_ne hne v0 v1 v2 0
    exact (atomically_keepsPixel ha hset).entry
  · obtain ⟨-, hsetch⟩ := not_mayWrite_of_ne hne v 0 0 ch
    exact (atomically_keepsPixel ha hsetch).entry

end Sys2Proof.Machine

/-! PROOFS. The statements of 42_serializer: decimal rendering, the header and the bodies on the flat
sequence of entries, the length of a stream, and a serialization from its word to its response. -/

namespace Sys2Proof.Machine

/-! ## Decimal rendering, R153 -/

/-- Digit by digit, the last one first, as `dec_digit` and `dec_step` take a value apart. -/
theorem digits_induction {P : Nat → Prop} (digit : ∀ v, v < 10 → P v)
    (step : ∀ v, 10 ≤ v → P (v / 10) → P v) (v : Nat) : P v := by
  induction v using Nat.strong_induction_on with
  | _ v ih =>
    by_cases hv : v < 10
    · exact digit v hv
    · exact step v (not_lt.1 hv) (ih (v / 10) (by omega))

theorem toNat_chDigit {d : Nat} (h : d < 10) : (chDigit d).toNat = 0x30 + d := by
  rw [chDigit, BitVec.toNat_ofNat]
  omega

/-- The digits read as a decimal number give the value back. -/
theorem foldl_dec (v : Nat) : (dec v).foldl (fun n b => 10 * n + (b.toNat - 0x30)) 0 = v := by
  induction v using digits_induction with
  | digit v hv => simp [dec_digit v hv, toNat_chDigit hv]
  | step v hv ih =>
    rw [dec_step v hv, List.foldl_append, ih, List.foldl_cons, List.foldl_nil,
      toNat_chDigit (Nat.mod_lt v (by decide))]
    omega

theorem dec_ne_nil (v : Nat) : dec v ≠ [] :=
  List.ne_nil_of_length_pos (length_dec_pos v)

theorem head?_dec_ne_zero (v : Nat) : v ≠ 0 → (dec v).head? ≠ some 0x30 := by
  induction v using digits_induction with
  | digit v hv =>
    intro h0 hhead
    rw [dec_digit v hv, List.head?_cons, Option.some_inj, BitVec.toNat_eq, toNat_chDigit hv] at hhead
    exact h0 (Nat.add_left_cancel hhead)
  | step v hv ih =>
    intro _
    rw [dec_step v hv, List.head?_append_of_ne_nil _ (dec_ne_nil _)]
    exact ih (by omega)

/-- `D(v)` between two powers of ten. -/
theorem length_dec (k : Nat) : ∀ v, 10 ^ k ≤ v → v < 10 ^ (k + 1) → (dec v).length = k + 1 := by
  induction k with
  | zero => exact fun v _ hv => length_dec_digit v hv
  | succ k ih =>
    intro v hlo hhi
    rw [Nat.pow_succ] at hlo hhi
    have hpos : 0 < 10 ^ k := Nat.pow_pos (by decide)
    rw [length_dec_step v (by omega), ih (v / 10) (by omega) (by omega)]

theorem length_dec_le {v : Nat} (hv : v ≤ 65535) : (dec v).length ≤ 5 :=
  (length_dec_mono 65535 v hv).trans_eq (length_dec 4 65535 (by decide) (by decide))

/-- Settles O45: each clause by the digits of a value, `D(v)` by the powers of ten around it. -/
theorem decimalRenderingIsCanonical : Obligations.DecimalRenderingIsCanonical := by
  intro v
  exact ⟨foldl_dec v, isDigit_of_mem_dec v, head?_dec_ne_zero v, rfl,
    fun hhi => length_dec_digit v (by omega), fun hlo hhi => length_dec 1 v hlo (by omega),
    fun hlo hhi => length_dec 2 v hlo (by omega), fun hlo hhi => length_dec 3 v hlo (by omega),
    fun hlo hhi => length_dec 4 v hlo (by omega)⟩

/-! ## The stream and its header, R152, R154 to R156 -/

theorem Enc.code_eq_zero_iff (e : Enc) : e.code = 0 ↔ e = .bilevel :=
  ⟨fun h => Enc.code_injective h, fun h => by rw [h]; rfl⟩

/-- Settles O46: `stream` in each mode, ENC 0 being bi-level. -/
theorem streamIsHeaderThenBody : Obligations.StreamIsHeaderThenBody := by
  intro s
  refine ⟨rfl, fun hcode => ?_, fun hcode => ?_⟩
  · rw [streamOf, stream, body, if_pos (s.enc.code_eq_zero_iff.1 hcode)]
  · rw [streamOf, stream, body, if_neg (mt s.enc.code_eq_zero_iff.2 hcode)]

/-- The lines of a header after its identifier is known. -/
theorem header_eq {m : Mode} {e : Enc} {d : Byte} (hd : dec (formatId m e) = [d]) (w h : Nat) :
    header m e w h = [0x50, d, 0x20] ++ dec w ++ [0x20] ++ dec h ++ (0x0A :: maxLine e) := by
  simp [header, hd, chP, chSpace, chNewline]

/-- Settles O48: `header_eq`, with the identifier and the MaxLine of each encoding evaluated. -/
theorem headerIsTheStatedLines : Obligations.HeaderIsTheStatedLines := by
  intro w h
  exact ⟨header_eq (by decide) w h, header_eq (by decide) w h, header_eq (by decide) w h,
    header_eq (by decide) w h, header_eq (by decide) w h, header_eq (by decide) w h,
    header_eq (by decide) w h, header_eq (by decide) w h, header_eq (by decide) w h,
    header_eq (by decide) w h⟩

theorem length_dec_formatId (m : Mode) (e : Enc) : (dec (formatId m e)).length = 1 := by
  refine length_dec_digit _ ?_
  cases m <;> cases e <;> decide

/-- `M`, the length of MaxLine. -/
theorem length_maxLine (e : Enc) :
    (maxLine e).length = match e.chanBits with | 1 => 0 | 8 => 4 | _ => 6 := by
  cases e <;> decide

theorem length_header (m : Mode) (e : Enc) (w h : Nat) :
    (header m e w h).length =
      5 + (dec w).length + (dec h).length + (maxLine e).length := by
  simp only [header, List.length_append, List.length_singleton, length_dec_formatId]
  omega

theorem length_maxLine_le (e : Enc) : (maxLine e).length ≤ 6 := by
  cases e <;> decide

theorem length_header_bounds (m : Mode) (e : Enc) {w h : Nat} (hw : w ≤ 65535) (hh : h ≤ 65535) :
    7 ≤ (header m e w h).length ∧ (header m e w h).length ≤ 21 := by
  have hw1 := length_dec_pos w
  have hh1 := length_dec_pos h
  have hw5 := length_dec_le hw
  have hh5 := length_dec_le hh
  have hm := length_maxLine_le e
  rw [length_header]
  omega

theorem length_header_largest (m : Mode) : (header m .rgb16 65535 65535).length = 21 := by
  rw [length_header, length_dec 4 65535 (by decide) (by decide)]
  rfl

/-- Settles O49: `length_header`, with `length_maxLine` and the digits of a 16-bit dimension. -/
theorem headerLengthIsTheStatedSum : Obligations.HeaderLengthIsTheStatedSum := by
  intro m e w h
  exact ⟨(length_header m e w h).trans (congrArg _ (length_maxLine e)),
    fun _ hw _ hh => length_header_bounds m e hw hh, length_header m .bilevel 1 1,
    length_header_largest m⟩

/-! ## The bodies on the flat sequence of entries, R157 to R162 -/

theorem BufferInv.legal_of_mem {s : State} (hb : BufferInv s) {p : Pixel} (hp : p ∈ s.pix.toList) :
    PixelLegal s.enc p :=
  (Memory.forall_run_iff (PixelLegal s.enc) s.pix hb.canonical).1 hb.entries p hp

theorem BufferInv.length_toList {s : State} (hb : BufferInv s) (hl : s.live = true) :
    s.pix.toList.length = s.width.toNat * s.height.toNat :=
  (Memory.length_toList _).trans (hb.size hl)

theorem Enc.length_channels (e : Enc) : e.channels.length = e.componentCount := by
  cases e <;> rfl

theorem Enc.mem_channels (e : Enc) (c : Fin 3) : c ∈ e.channels ↔ c.val < e.componentCount := by
  revert c
  cases e <;> decide

/-- Where each element gives between `a` and `b` bytes, so does the whole list as often. -/
theorem length_flatMap_bounds {α β : Type} {l : List α} {f : α → List β} {a b : Nat}
    (h : ∀ x ∈ l, a ≤ (f x).length ∧ (f x).length ≤ b) :
    l.length * a ≤ (l.flatMap f).length ∧ (l.flatMap f).length ≤ l.length * b := by
  rw [List.length_flatMap]
  constructor
  · simpa using List.card_nsmul_le_sum (l.map fun x => (f x).length) a
      (List.forall_mem_map.2 fun x hx => (h x hx).1)
  · simpa using List.sum_le_card_nsmul (l.map fun x => (f x).length) b
      (List.forall_mem_map.2 fun x hx => (h x hx).2)

theorem length_flatMap_const {α β : Type} {l : List α} {f : α → List β} {a : Nat}
    (h : ∀ x ∈ l, (f x).length = a) : (l.flatMap f).length = l.length * a := by
  obtain ⟨hlo, hhi⟩ := length_flatMap_bounds fun x hx => ⟨(h x hx).ge, (h x hx).le⟩
  exact hhi.antisymm hlo

theorem pixelText_eq (e : Enc) (p : Pixel) :
    pixelText e p =
      if e.componentCount = 3 then
        dec p.c0.toNat ++ [0x20] ++ dec p.c1.toNat ++ [0x20] ++ dec p.c2.toNat ++ [0x20]
      else dec p.c0.toNat ++ [0x20] := by
  unfold pixelText Enc.channels
  split <;> simp [Pixel.chan, chSpace]

theorem length_pixelText (e : Enc) (p : Pixel) :
    (pixelText e p).length = (e.channels.map fun c => (dec (p.chan c).toNat).length + 1).sum := by
  simp [pixelText, List.length_flatMap]

/-- A channel of a legal pixel takes at least one digit and a space, and at most those of chanMax. -/
theorem length_pixelText_bounds {e : Enc} {p : Pixel} (hp : PixelLegal e p) :
    e.componentCount * 2 ≤ (pixelText e p).length ∧
      (pixelText e p).length ≤ e.componentCount * ((dec e.chanMax).length + 1) := by
  rw [← e.length_channels]
  refine length_flatMap_bounds fun c hc => ?_
  obtain ⟨hmax, -⟩ := hp c
  have hpos := length_dec_pos (p.chan c).toNat
  have hle := length_dec_mono _ _ (hmax ((e.mem_channels c).1 hc))
  rw [List.length_append, List.length_singleton]
  omega

/-- The two bytes of a channel value (42_serializer R161). -/
theorem extractLsb'_lowByte (v : Half) : v.extractLsb' 0 8 = BitVec.ofNat 8 (v.toNat % 256) := by
  apply BitVec.eq_of_toNat_eq
  simp

theorem extractLsb'_highByte (v : Half) : v.extractLsb' 8 8 = BitVec.ofNat 8 (v.toNat / 256) := by
  apply BitVec.eq_of_toNat_eq
  simp [Nat.shiftRight_eq_div_pow]

theorem length_pixelSamples {e : Enc} (he : e ≠ .bilevel) (p : Pixel) :
    (pixelSamples e p).length = e.componentCount * (e.chanBits / 8) := by
  cases e with
  | bilevel => exact absurd rfl he
  | _ => rfl

section
variable {s : State} (hb : BufferInv s) (hl : s.live = true)
include hb hl

theorem body_text_eq : body .text s.enc s.pix s.width.toNat s.height.toNat =
    s.pix.toList.flatMap (pixelText s.enc) :=
  rowMajor_eq _ _ _ _ (hb.size hl)

theorem body_samples_eq (he : s.enc ≠ .bilevel) :
    body .binary s.enc s.pix s.width.toNat s.height.toNat =
      s.pix.toList.flatMap (pixelSamples s.enc) := by
  rw [body, if_neg he]
  exact rowMajor_eq _ _ _ _ (hb.size hl)

theorem length_body_text_bounds :
    2 * (s.width.toNat * s.height.toNat * s.enc.componentCount) ≤
        (body .text s.enc s.pix s.width.toNat s.height.toNat).length ∧
      (body .text s.enc s.pix s.width.toNat s.height.toNat).length ≤
        ((dec s.enc.chanMax).length + 1) *
          (s.width.toNat * s.height.toNat * s.enc.componentCount) := by
  rw [body_text_eq hb hl]
  have h := length_flatMap_bounds fun p hp => length_pixelText_bounds (hb.legal_of_mem hp)
  rwa [hb.length_toList hl, ← Nat.mul_assoc, ← Nat.mul_assoc, Nat.mul_comm _ 2,
    Nat.mul_comm _ (_ + 1)] at h

theorem length_body_samples (he : s.enc ≠ .bilevel) :
    (body .binary s.enc s.pix s.width.toNat s.height.toNat).length =
      s.width.toNat * s.height.toNat * s.enc.componentCount * (s.enc.chanBits / 8) := by
  rw [body_samples_eq hb hl he, length_flatMap_const fun p _ => length_pixelSamples he p,
    hb.length_toList hl, Nat.mul_assoc _ s.enc.componentCount]

theorem toList_ne_nil : s.pix.toList ≠ [] := by
  obtain ⟨hwidth, hheight, -⟩ := hb.dims hl
  refine List.ne_nil_of_length_pos ?_
  rw [hb.length_toList hl]
  exact Nat.mul_pos hwidth hheight

end

/-- Settles O50: `body_text_eq`, with the text of each entry written out. -/
theorem textBodyIsTheEntriesInOrder : Obligations.TextBodyIsTheEntriesInOrder := by
  intro s hb hl
  rw [body_text_eq hb hl]
  exact List.flatMap_congr fun p _ => pixelText_eq s.enc p

theorem getLast?_pixelText (e : Enc) (p : Pixel) : (pixelText e p).getLast? = some 0x20 := by
  rw [pixelText_eq]
  split
  · exact List.getLast?_concat
  · exact List.getLast?_concat

/-- Settles O51: the last entry ends in a space, and the lengths of the entries add up. -/
theorem textBodyLengthIsTheStatedSum : Obligations.TextBodyLengthIsTheStatedSum := by
  intro s hb hl
  refine ⟨?_, ?_, length_body_text_bounds hb hl⟩
  · rw [body_text_eq hb hl]
    obtain ⟨l, p, hlist⟩ := List.eq_nil_or_concat' s.pix.toList |>.resolve_left (toList_ne_nil hb hl)
    rw [hlist, List.flatMap_append, List.flatMap_singleton, List.getLast?_append, getLast?_pixelText]
    rfl
  · rw [body_text_eq hb hl, List.length_flatMap]
    simp only [length_pixelText]

/-- A legal bi-level entry is 0 or 1, one digit. -/
theorem pixelText_bilevel {p : Pixel} (hp : PixelLegal .bilevel p) :
    pixelText .bilevel p = [if p.c0 = 1 then 0x31 else 0x30, 0x20] := by
  obtain ⟨hmax, -⟩ := hp 0
  have hle : p.c0.toNat ≤ 1 := hmax (by decide)
  have hc : p.c0 = 0 ∨ p.c0 = 1 :=
    (Nat.le_one_iff_eq_zero_or_eq_one.1 hle).imp BitVec.eq_of_toNat_eq BitVec.eq_of_toNat_eq
  rw [pixelText_eq]
  rcases hc with hc | hc <;> rw [hc] <;> rfl

/-- Settles O52: `body_text_eq`, with one digit for each legal entry. -/
theorem bilevelTextIsOneDigitAPixel : Obligations.BilevelTextIsOneDigitAPixel := by
  intro s hb hl he
  have hbody : body .text s.enc s.pix s.width.toNat s.height.toNat =
      s.pix.toList.flatMap fun p => [if p.c0 = 1 then 0x31 else 0x30, 0x20] := by
    rw [body_text_eq hb hl]
    refine List.flatMap_congr fun p hp => ?_
    have hlegal := hb.legal_of_mem hp
    rw [he] at hlegal ⊢
    exact pixelText_bilevel hlegal
  refine ⟨hbody, ?_⟩
  rw [hbody, length_flatMap_const (a := 2) fun _ _ => rfl, hb.length_toList hl, Nat.mul_comm,
    Nat.mul_assoc]

/-- Settles O53: `body_samples_eq`, with the bytes of each entry written out. -/
theorem sampleBodyIsLittleEndianInOrder : Obligations.SampleBodyIsLittleEndianInOrder := by
  intro s hb hl he
  refine ⟨fun henc => ?_, fun henc => ?_, fun henc => ?_, fun henc => ?_,
    length_body_samples hb hl he⟩
  all_goals
    rw [body_samples_eq hb hl he, henc]
    refine List.flatMap_congr fun p _ => ?_
    simp only [← extractLsb'_lowByte, ← extractLsb'_highByte]
    rfl

/-! ## The bi-level binary body, R163 to R166 -/

/-- The rows of bytes are one list of `h * ceilDiv w 8` bytes. -/
theorem bilevelBody_eq (pix : Memory) (w h : Nat) :
    bilevelBody pix w h = (List.range (h * ceilDiv w 8)).map fun i =>
      invert (groupByte pix w (i / ceilDiv w 8) (i % ceilDiv w 8)) := by
  rw [List.map_eq_flatMap, ← flatMap_rows]
  refine List.flatMap_congr fun y _ => ?_
  rw [List.map_eq_flatMap]
  refine List.flatMap_congr fun g hg => ?_
  have hlt : g < ceilDiv w 8 := List.mem_range.1 hg
  rw [Nat.mul_comm y, Nat.mul_add_div (Nat.zero_lt_of_lt hlt), Nat.mul_add_mod, Nat.mod_eq_of_lt hlt,
    Nat.div_eq_of_lt hlt, Nat.add_zero]

theorem length_bilevelBody (pix : Memory) (w h : Nat) :
    (bilevelBody pix w h).length = h * ceilDiv w 8 := by
  rw [bilevelBody_eq, List.length_map, List.length_range]

/-- Byte `g` of row `y`. -/
theorem getElem?_bilevelBody (pix : Memory) {w h y g : Nat} (hy : y < h) (hg : g < ceilDiv w 8) :
    (bilevelBody pix w h)[y * ceilDiv w 8 + g]? = some (invert (groupByte pix w y g)) := by
  have hi : y * ceilDiv w 8 + g < h * ceilDiv w 8 := (idx_lt hg hy).trans_eq (Nat.mul_comm _ _)
  rw [bilevelBody_eq, List.getElem?_map, List.getElem?_range hi, Option.map_some, Nat.mul_comm y,
    Nat.mul_add_div (Nat.zero_lt_of_lt hg), Nat.mul_add_mod, Nat.mod_eq_of_lt hg,
    Nat.div_eq_of_lt hg, Nat.add_zero]

theorem getLsbD_invert (b : Byte) {i : Nat} (hi : i < 8) :
    (invert b).getLsbD i = !b.getLsbD i := by
  have hnot : invert b = ~~~b := BitVec.allOnes_sub_eq_not b
  rw [hnot, BitVec.getLsbD_not, decide_eq_true hi, Bool.true_and]

/-- Setting bit `7 - i` for each of the first `n` pixels that satisfies `P`. -/
theorem getLsbD_foldl_setBit (P : Nat → Prop) [DecidablePred P] {k : Nat} (hk : k < 8) (n : Nat)
    (hn : n ≤ 8) :
    ((List.range n).foldl (fun byte i => if P i then byte ||| (1#8 <<< (7 - i)) else byte)
      0#8).getLsbD (7 - k) = (decide (k < n) && decide (P k)) := by
  induction n with
  | zero => simp
  | succ n ih =>
    have hbit : (1#8 <<< (7 - n)).getLsbD (7 - k) = decide (k = n) := by
      rw [BitVec.getLsbD_shiftLeft, BitVec.getLsbD_one, Bool.eq_iff_iff]
      simp
      omega
    rw [List.range_succ, List.foldl_append, List.foldl_cons, List.foldl_nil,
      apply_ite (fun b : Byte => b.getLsbD (7 - k)), BitVec.getLsbD_or, ih (by omega), hbit]
    by_cases hkn : k = n
    · subst hkn
      by_cases hP : P k <;> simp [hP]
    · have hlt : k < n + 1 ↔ k < n := by omega
      simp [hkn, hlt]

/-- Bit `7 - k` of a group is set where pixel `k` of it is in the row and true. -/
theorem getLsbD_groupByte (pix : Memory) (w y g : Nat) {k : Nat} (hk : k < 8) :
    (groupByte pix w y g).getLsbD (7 - k) =
      (decide (8 * g + k < w) && decide ((pixelAt pix w (8 * g + k) y).c0 = 1)) := by
  have hrow : k < min 8 (w - 8 * g) ↔ 8 * g + k < w := by omega
  rw [groupByte, getLsbD_foldl_setBit (fun i => (pixelAt pix w (8 * g + i) y).c0 = 1) hk _ (by omega),
    decide_eq_decide.2 hrow]

/-- The default pixel of a missing entry is no true one. -/
theorem pixelAt_true_iff (pix : Memory) (w x y : Nat) :
    (pixelAt pix w x y).c0 = 1 ↔ (pix.toList[y * w + x]?).map Pixel.c0 = some 1 := by
  rw [pixelAt, Memory.read_eq_toList, idx]
  cases pix.toList[y * w + x]? with
  | none => decide
  | some p => simp

/-- Settles O54: the byte at its place in the rows, its bits from the pixels of its group. -/
theorem bilevelBodyStoresTheInvertedPixels : Obligations.BilevelBodyStoresTheInvertedPixels := by
  intro s _ _ he
  have hbody : body .binary s.enc s.pix s.width.toNat s.height.toNat =
      bilevelBody s.pix s.width.toNat s.height.toNat := if_pos he
  simp only [hbody]
  refine ⟨length_bilevelBody _ _ _, fun y g k hy hg hk =>
    ⟨_, getElem?_bilevelBody s.pix hy hg, ?_⟩⟩
  rw [getLsbD_invert _ (by omega), getLsbD_groupByte _ _ _ _ hk]
  by_cases hx : 8 * g + k < s.width.toNat
  · simp only [hx, pixelAt_true_iff, decide_true, Bool.true_and, if_true]
  · simp [hx]

/-! ## The length of a stream, R167 -/

theorem length_streamOf (m : Mode) (s : State) :
    (streamOf m s).length = (header m s.enc s.width.toNat s.height.toNat).length +
      (body m s.enc s.pix s.width.toNat s.height.toNat).length :=
  List.length_append

theorem Enc.sampleBytes_bounds {e : Enc} (he : e ≠ .bilevel) :
    1 ≤ e.componentCount * (e.chanBits / 8) ∧ e.componentCount * (e.chanBits / 8) ≤ 18 := by
  revert he
  cases e <;> decide

/-- A row has at least one byte, and no more bytes than pixels. -/
theorem ceilDiv_eight_bounds {w : Nat} (hw : 0 < w) : 1 ≤ ceilDiv w 8 ∧ ceilDiv w 8 ≤ w := by
  unfold ceilDiv
  omega

section
variable {s : State} (hb : BufferInv s) (hl : s.live = true)
include hb hl

/-- A pixel takes at most three channels of five digits and a space. -/
theorem length_body_le (m : Mode) :
    (body m s.enc s.pix s.width.toNat s.height.toNat).length ≤ pixelCount s * 18 := by
  cases m with
  | text =>
    obtain ⟨-, hle⟩ := length_body_text_bounds hb hl
    obtain ⟨-, hmax⟩ := s.enc.chanMax_lt
    have hdigits := length_dec_le hmax
    refine hle.trans ?_
    rw [Nat.mul_comm, Nat.mul_assoc]
    refine Nat.mul_le_mul_left _ ?_
    rcases s.enc.componentCount_cases with hc | hc <;> rw [hc] <;> omega
  | binary =>
    by_cases he : s.enc = .bilevel
    · obtain ⟨hwidth, -⟩ := hb.dims hl
      obtain ⟨-, hle⟩ := ceilDiv_eight_bounds hwidth
      rw [body, if_pos he, length_bilevelBody, Nat.mul_comm]
      exact (Nat.mul_le_mul_right _ hle).trans (Nat.le_mul_of_pos_right _ (by decide))
    · obtain ⟨-, hle⟩ := Enc.sampleBytes_bounds he
      rw [length_body_samples hb hl he, Nat.mul_assoc]
      exact Nat.mul_le_mul_left _ hle

theorem length_body_text_ge :
    2 ≤ (body .text s.enc s.pix s.width.toNat s.height.toNat).length := by
  obtain ⟨hwidth, hheight, -⟩ := hb.dims hl
  obtain ⟨hge, -⟩ := length_body_text_bounds hb hl
  have hpos := Nat.mul_pos (Nat.mul_pos hwidth hheight) s.enc.componentCount_pos
  omega

theorem length_body_pos (m : Mode) :
    1 ≤ (body m s.enc s.pix s.width.toNat s.height.toNat).length := by
  obtain ⟨hwidth, hheight, -⟩ := hb.dims hl
  cases m with
  | text => exact (by decide : 1 ≤ 2).trans (length_body_text_ge hb hl)
  | binary =>
    by_cases he : s.enc = .bilevel
    · obtain ⟨hge, -⟩ := ceilDiv_eight_bounds hwidth
      rw [body, if_pos he, length_bilevelBody]
      exact Nat.mul_pos hheight hge
    · obtain ⟨hge, -⟩ := Enc.sampleBytes_bounds he
      rw [length_body_samples hb hl he, Nat.mul_assoc]
      exact Nat.mul_pos (Nat.mul_pos hwidth hheight) hge

theorem length_streamOf_le (m : Mode) : (streamOf m s).length ≤ 77307052071 := by
  obtain ⟨-, hheader⟩ := length_header_bounds m s.enc (Nat.le_of_lt_succ s.width.isLt)
    (Nat.le_of_lt_succ s.height.isLt)
  have hbody := length_body_le hb hl m
  have hcount := pixelCount_le s
  rw [length_streamOf]
  omega

/-- Every channel of five digits: the longest body. -/
theorem length_body_text_fiveDigits (he : s.enc = .rgb16)
    (hdigits : ∀ p ∈ s.pix.toList,
      10000 ≤ p.c0.toNat ∧ 10000 ≤ p.c1.toNat ∧ 10000 ≤ p.c2.toNat) :
    (body .text s.enc s.pix s.width.toNat s.height.toNat).length = pixelCount s * 18 := by
  have hfive : ∀ v : Half, 10000 ≤ v.toNat → (dec v.toNat).length = 5 := fun v hv =>
    length_dec 4 _ hv (v.isLt.trans (by decide))
  rw [body_text_eq hb hl, length_flatMap_const (a := 18) fun p hp => ?_, hb.length_toList hl,
    pixelCount]
  obtain ⟨h0, h1, h2⟩ := hdigits p hp
  simp [he, pixelText_eq, Enc.componentCount, hfive _ h0, hfive _ h1, hfive _ h2]

end

/-- Settles O55: the bounds of the header and of the body of each kind, and the streams that reach
them. -/
theorem streamLengthIsWithinTheStatedBounds : Obligations.StreamLengthIsWithinTheStatedBounds := by
  intro s m hb hl
  obtain ⟨hheader, -⟩ := length_header_bounds m s.enc (Nat.le_of_lt_succ s.width.isLt)
    (Nat.le_of_lt_succ s.height.isLt)
  have hpos := length_body_pos hb hl m
  have hle := length_streamOf_le hb hl m
  have hlen := length_streamOf m s
  have hbilevel : s.enc = .bilevel → s.width = 1 → s.height = 1 →
      (header m s.enc s.width.toNat s.height.toNat).length = 7 := fun he hw hh => by
    rw [he, hw, hh]
    exact length_header m .bilevel 1 1
  refine ⟨hlen, by omega, ?_, hle, by omega, ?_, ?_, ?_⟩
  · rintro rfl
    have hge := length_body_text_ge hb hl
    omega
  · rintro rfl he hw hh
    rw [hlen, hbilevel he hw hh, body, if_pos he, length_bilevelBody, hw, hh]
    rfl
  · rintro rfl he hw hh
    obtain ⟨-, hbody⟩ := bilevelTextIsOneDigitAPixel s hb hl he
    rw [hlen, hbilevel he hw hh, hbody, hw, hh]
    rfl
  · rintro rfl he hw hh hdigits
    rw [hlen, length_body_text_fiveDigits hb hl he hdigits, pixelCount, he, hw, hh]
    exact congrArg (· + 65535 * 65535 * 18) (length_header_largest .text)

/-! ## SERT and SERB, R150, R151, R168, R169 -/

theorem exec_serializeCommand (m : Mode) (s : State) :
    exec (serializeCommand m) s = serialize m s := by
  cases m <;> rfl

theorem perform_serializeCommand (m : Mode) (s : State) :
    perform (encode (serializeCommand m)) s = serialize m s := by
  have hwf : (serializeCommand m).wf = true := by cases m <;> rfl
  rw [perform_of_decode (decode_encode _ hwf), exec_serializeCommand]

theorem serialize_complete {s : State} (m : Mode) (hl : s.live = true)
    (hc : storeComplete s = true) : serialize m s = .next (s.beginStream (streamOf m s)) := by
  rw [serialize, withBuffer_live s _ hl, if_pos hc]

/-- The response of a serialization is the number of 30_encoding R80: no stream is too long for it. -/
theorem responseWord_length_streamOf {s : State} (hb : BufferInv s) (hl : s.live = true) (m : Mode) :
    responseWord .ok (zext56 (streamOf m s).length) = rspNumber 0 (streamOf m s).length :=
  responseWord_eq .ok _ ((length_streamOf_le hb hl m).trans_lt (by decide))

theorem malformedAnswersIllegal_serialize (s : State) : MalformedAnswersIllegal 7 legalSerialize s := by
  refine malformedAnswersIllegal s fun i _ hop => ?_
  cases i with
  | sert => simp [encode, legalSerialize_iff]
  | serb => simp [encode, legalSerialize_iff]
  | _ => simp [encode] at hop

/-- Settles O31: without a buffer the check of `withBuffer` answers, and a buffer with the invariant has
every entry. -/
theorem serializeNeverFailsForALiveBuffer : Obligations.SerializeNeverFailsForALiveBuffer := by
  intro s
  have hserialize : ∀ m, BufferInv s → s.live = true → serialize m s = .next { s with
      outq := streamOf m s
      held := some (rspNumber 0 (streamOf m s).length) } := fun m hb hl => by
    rw [serialize_complete m hl (hb.storeComplete hl), State.beginStream,
      responseWord_length_streamOf hb hl]
  refine ⟨fun hl => ?_, fun hb hl => ⟨hserialize .text hb hl, hserialize .binary hb hl⟩,
    malformedAnswersIllegal_serialize s⟩
  obtain ⟨-, -, -, -, hsert, hserb⟩ := respondsOnly_errNoBuffer s hl 0 0 0 0 0 0
  exact ⟨hsert, hserb⟩

/-- A stream reads its store through the entries alone. -/
theorem stream_congr {pix pix' : Memory} (h : ∀ i, pix'.read i = pix.read i) (m : Mode) (e : Enc)
    (w ht : Nat) : stream m e pix' w ht = stream m e pix w ht := by
  have hpixel : pixelAt pix' = pixelAt pix := by
    funext w x y
    rw [pixelAt, h, pixelAt]
  simp only [stream, body, textBody, sampleBody, bilevelBody, rowMajor, groupByte, hpixel]

/-- The whole buffer is the same. -/
structure SameBuffer (s t : State) : Prop where
  shape : SameShape s t
  entries : t.pix = s.pix

section
variable {s t u : State}

theorem SameBuffer.refl : SameBuffer s s := ⟨⟨rfl, rfl, rfl, rfl⟩, rfl⟩

theorem SameBuffer.trans (h : SameBuffer s t) (h' : SameBuffer t u) : SameBuffer s u :=
  ⟨h.shape.trans h'.shape, h'.entries.trans h.entries⟩

theorem SameBuffer.streamOf (h : SameBuffer s t) (m : Mode) : streamOf m t = streamOf m s := by
  obtain ⟨⟨hwidth, hheight, henc, -⟩, hpix⟩ := h
  rw [Machine.streamOf, Machine.streamOf, hwidth, hheight, henc, hpix]

theorem SameBuffer.storeComplete (h : SameBuffer s t) : storeComplete t = storeComplete s := by
  obtain ⟨⟨hwidth, hheight, -, -⟩, hpix⟩ := h
  rw [Machine.storeComplete, Machine.storeComplete, pixelCount, pixelCount, hwidth, hheight, hpix]

theorem SameBuffer.setResponse (st : Status) (d : RspData) : SameBuffer s (s.setResponse st d) :=
  ⟨sameShape_setResponse st d, rfl⟩

theorem SameBuffer.beginStream (bytes : List Byte) : SameBuffer s (s.beginStream bytes) :=
  ⟨⟨rfl, rfl, rfl, rfl⟩, rfl⟩

theorem SameBuffer.complete (h : SameBuffer s t) : SameBuffer s t.complete :=
  ⟨h.shape, h.entries⟩

theorem serialize_sameBuffer {m : Mode} (he : serialize m s = .next t) : SameBuffer s t := by
  rcases serialize_next m s t he with ⟨-, rfl⟩ | ⟨-, -, rfl⟩
  · exact .setResponse _ _
  · exact .beginStream _

/-- A command that is no CREATE, SET or SETCH leaves the buffer. -/
theorem exec_sameBuffer {i : Instr} (h1 : fieldOP (encode i) ≠ 1) (h3 : fieldOP (encode i) ≠ 3)
    (h5 : fieldOP (encode i) ≠ 5) (he : exec i s = .next t) : SameBuffer s t := by
  cases i with
  | create c w h v0 v1 v2 => exact absurd (fieldOP_packWord ..) h1
  | set x y v0 v1 v2 => exact absurd (fieldOP_packWord ..) h3
  | setch x y ch v => exact absurd (fieldOP_packWord ..) h5
  | get x y =>
    obtain ⟨st, d, rfl⟩ := execGet_next x y s t he
    exact .setResponse st d
  | getch x y ch =>
    obtain ⟨st, d, rfl⟩ := execGetch_next x y ch s t he
    exact .setResponse st d
  | info =>
    obtain rfl := next_inj.1 he
    exact .setResponse _ _
  | sert => exact serialize_sameBuffer he
  | serb => exact serialize_sameBuffer he

/-- The word's opcode is none of CREATE, SET and SETCH. -/
abbrev WritesNothing (w : CmdWord) : Prop :=
  w.toNat % 16 ≠ 1 ∧ w.toNat % 16 ≠ 3 ∧ w.toNat % 16 ≠ 5

theorem perform_sameBuffer {w : CmdWord} (hw : WritesNothing w) (hp : perform w s = .next t) :
    SameBuffer s t := by
  rcases perform_next w s t hp with ⟨i, hdec, hi⟩ | ⟨r, -, rfl⟩
  · obtain ⟨-, rfl⟩ := encode_of_decode hdec
    obtain ⟨h1, h3, h5⟩ := hw
    have hopcode : ∀ op, fieldOP (encode i) = op → (encode i).toNat % 16 = op.toNat := fun op hop =>
      (fieldOP_toNat _).symm.trans (congrArg BitVec.toNat hop)
    exact exec_sameBuffer (mt (hopcode 1) h1) (mt (hopcode 3) h3) (mt (hopcode 5) h5) hi
  · exact .setResponse _ _

theorem foldl_atomically_sameBuffer (ws : List CmdWord) : ∀ s : State,
    (∀ w ∈ ws, WritesNothing w) → SameBuffer s (ws.foldl atomically s) := by
  induction ws with
  | nil => exact fun s _ => .refl
  | cons w ws ih =>
    intro s hws
    rw [List.forall_mem_cons] at hws
    obtain ⟨hw, hws⟩ := hws
    refine SameBuffer.trans ?_ (ih _ hws)
    rcases atomically_cases s w with ⟨t, hp, hcomplete⟩ | hsame
    · rw [hcomplete]
      exact (perform_sameBuffer hw hp).complete
    · rw [hsame]
      exact .refl

theorem atomically_serializeCommand (m : Mode) (hl : s.live = true) (hc : storeComplete s = true) :
    atomically s (encode (serializeCommand m)) = (s.beginStream (streamOf m s)).complete :=
  atomically_of_next ((perform_serializeCommand m s).trans (serialize_complete m hl hc))

end

/-- Settles O56: `stream_congr`; and a serialization as one event leaves the buffer of which it sends the
stream, as every word between the two does. -/
theorem streamDependsOnTheBufferAlone : Obligations.StreamDependsOnTheBufferAlone := by
  refine ⟨fun m s s' henc hwidth hheight hread => ?_, fun s m ws hb _ hl hws => ?_⟩
  · rw [streamOf, streamOf, henc, hwidth, hheight, stream_congr hread]
  · have hfirst := atomically_serializeCommand m hl (hb.storeComplete hl)
    have hsame : SameBuffer s (ws.foldl atomically (atomically s (encode (serializeCommand m)))) := by
      refine SameBuffer.trans ?_ (foldl_atomically_sameBuffer ws _ hws)
      rw [hfirst]
      exact (SameBuffer.beginStream _).complete
    obtain ⟨hwidth, hheight, henc, hlive⟩ := hsame.shape
    have hsecond := atomically_serializeCommand m (hlive.trans hl)
      (hsame.storeComplete.trans (hb.storeComplete hl))
    refine ⟨transfersOf (streamOf m s), congrArg State.sinkGot hfirst, ?_,
      data_transfersOf _, ?_⟩
    · rw [hsecond, hsame.streamOf m]
      rfl
    · rw [hsecond]
      exact ⟨hlive.trans hl, henc, hwidth, hheight, hsame.entries⟩

/-! ## A serialization from its word to its response, R170 to R172 -/

/-- After `s` has taken a SERIALIZE of these bytes: `k` of them have been sent, and the coming input
levels are `ts`. -/
def delivering (bytes : List Byte) (s : State) (k : Nat) (ts : List Tick) : State :=
  { s with
    busy := true
    outq := bytes.drop k
    rspq := if k = bytes.length then some (rspNumber 0 bytes.length) else none
    held := if k = bytes.length then none else some (rspNumber 0 bytes.length)
    cmdq := s.cmdq.tail
    ticks := ts
    sinkGot := s.sinkGot ++ (transfersOf bytes).take k }

/-- The host has its response, and the block is as it was before the word. -/
def delivered (bytes : List Byte) (s : State) (ts : List Tick) : State :=
  { s with
    cmdq := s.cmdq.tail
    ticks := ts
    sinkGot := s.sinkGot ++ transfersOf bytes
    hostGot := s.hostGot ++ [rspNumber 0 bytes.length] }

section
variable {bytes rest : List Byte} {b : Byte} {s t u : State} {k : Nat} {ts : List Tick}

theorem lt_length_of_drop (h : bytes.drop k = b :: rest) : k < bytes.length :=
  Nat.lt_of_not_le fun hle => by
    rw [List.drop_eq_nil_of_le hle] at h
    cases h

/-- The step that takes the word. -/
theorem step_serialize (hinv : Inv s) (hl : s.live = true) (hbusy : s.busy = false)
    (hrst : s.tick.rst = false) {m : Mode}
    (hw : s.presented = some (encode (serializeCommand m))) :
    step s = .next (delivering (streamOf m s) s 0 s.ticks.tail) := by
  obtain ⟨-, -, hrsp, -⟩ := hinv.phase.idle hbusy
  have hne : 0 ≠ (streamOf m s).length := (List.length_pos_of_ne_nil (streamOf_ne_nil m s)).ne
  have hserialize : serialize m s.advance.takeCommand =
      .next (s.advance.takeCommand.beginStream (streamOf m s)) :=
    serialize_complete m hl (hinv.buffer.takeCommand.storeComplete hl)
  rw [step_accept s _ hrst hbusy hw, perform_serializeCommand, hserialize, State.beginStream,
    responseWord_length_streamOf hinv.buffer hl, delivering, if_neg hne, if_neg hne, List.drop_zero,
    List.take_zero, List.append_nil]
  simp [State.takeCommand, State.advance, hrsp]

/-- SendByte sends the next byte, and after the last one the held response is in RSPQ. -/
theorem delivering_sendByte (h : bytes.drop k = b :: rest) :
    (delivering bytes s k ts).advance.sendByte ⟨b, rest.isEmpty⟩ =
      delivering bytes s (k + 1) ts.tail := by
  have hrest : bytes.drop (k + 1) = rest := by rw [← List.tail_drop, h, List.tail_cons]
  have hsent : (transfersOf bytes).take (k + 1) =
      (transfersOf bytes).take k ++ [⟨b, rest.isEmpty⟩] := by
    rw [List.take_add, drop_transfersOf, h]
    rfl
  have hlast : rest.isEmpty = true ↔ k + 1 = bytes.length := by
    have hlt := lt_length_of_drop h
    rw [← hrest, List.isEmpty_iff, List.drop_eq_nil_iff]
    omega
  have hk : k ≠ bytes.length := (lt_length_of_drop h).ne
  simp only [State.sendByte, State.advance, delivering, hk, if_false, hlast, hsent, hrest, h,
    List.tail_cons, List.append_assoc]

/-- SendRsp completes the serialization. -/
theorem delivering_sendRsp (hidle : Idle s) :
    (delivering bytes s bytes.length ts).advance.sendRsp (rspNumber 0 bytes.length) =
      delivered bytes s ts.tail := by
  obtain ⟨hbusy, hout, hrsp, hheld⟩ := hidle
  have hall : (transfersOf bytes).take bytes.length = transfersOf bytes :=
    List.take_of_length_le (length_transfersOf bytes).le
  simp [State.sendRsp, State.advance, delivering, delivered, hall, hbusy, hout, hrsp, hheld]

/-- A step without reset waits, sends the next byte, or hands the response to the host. -/
theorem step_delivering (hk : k ≤ bytes.length) (hrst : (delivering bytes s k ts).tick.rst = false)
    (hs : step (delivering bytes s k ts) = .next t) :
    (∃ k' ≤ bytes.length, t = delivering bytes s k' ts.tail) ∨
      t.hostGot = s.hostGot ++ [rspNumber 0 bytes.length] := by
  rcases step_next hs with ⟨h, -⟩ | ⟨-, hbusy, -⟩ | ⟨-, b, rest, hout, rfl⟩ | ⟨-, r, hrsp, rfl⟩ |
    ⟨-, rfl⟩
  · exact absurd (h.symm.trans hrst) (by decide)
  · cases hbusy
  · exact .inl ⟨k + 1, lt_length_of_drop hout, delivering_sendByte hout⟩
  · simp only [delivering, Option.ite_none_right_eq_some, Option.some_inj] at hrsp
    obtain ⟨-, rfl⟩ := hrsp
    exact .inr rfl
  · exact .inl ⟨k, hk, rfl⟩

/-- Without reset since `s` took a SERIALIZE of these bytes, they are being delivered or the host has had
a response. -/
structure Serving (bytes : List Byte) (s u : State) : Prop where
  inv : Inv u
  free : ResetFree u
  progress : (∃ k ≤ bytes.length, u = delivering bytes s k u.ticks) ∨
    s.hostGot.length < u.hostGot.length

theorem Serving.step (h : Serving bytes s u) (hs : step u = .next t) : Serving bytes s t := by
  refine ⟨h.inv.step hs, h.free.step hs, ?_⟩
  rcases h.progress with ⟨k, hk, hu⟩ | hmore
  · have hrst := h.free.tick
    rw [hu] at hs hrst
    rcases step_delivering hk hrst hs with ⟨k', hk', rfl⟩ | hgot
    · exact .inl ⟨k', hk', rfl⟩
    · exact .inr (by rw [hgot]; simp)
  · have hprefix := (Conserves.step h.inv.phase h.free.tick hs).responses
    exact .inr (hmore.trans_le hprefix.length_le)

/-- With a ready sink each step sends a byte. -/
theorem run_delivering (k : Nat) (hk : k ≤ bytes.length) :
    run k (delivering bytes s 0 []) = .next (delivering bytes s k []) := by
  induction k with
  | zero => rfl
  | succ k ih =>
    have hdrop := List.drop_eq_getElem_cons hk
    rw [run_add k 1 _ _ (ih (Nat.le_of_succ_le hk)),
      run_succ_next 0 (step_sendByte _ _ _ rfl (.inl rfl) hdrop rfl), delivering_sendByte hdrop]
    rfl

theorem step_delivering_sendRsp (hidle : Idle s) :
    step (delivering bytes s bytes.length []) = .next (delivered bytes s []) := by
  rw [step_sendRsp _ (rspNumber 0 bytes.length) rfl (.inl rfl) (.inl List.drop_length) (if_pos rfl)
    rfl, delivering_sendRsp hidle]
  rfl

end

/-- Settles O57: the word taken, one byte in each step, and the response. -/
theorem serializationDeliversExactlyTheStream : Obligations.SerializationDeliversExactlyTheStream := by
  intro s m hinv hl hbusy hticks hw
  have hstart := step_serialize hinv hl hbusy (by rw [tick_of_nil s hticks]; rfl) hw
  rw [hticks, List.tail_nil] at hstart
  have hrun : ∀ k ≤ (streamOf m s).length,
      run (1 + k) s = .next (delivering (streamOf m s) s k []) := fun k hk => by
    rw [Nat.add_comm, run_succ_next k hstart, run_delivering k hk]
  refine ⟨transfersOf (streamOf m s), ?_, data_transfersOf _, last_transfersOf _, fun k hk =>
    ⟨_, hrun k hk.le, rfl, rfl, if_neg hk.ne⟩⟩
  rw [show (streamOf m s).length + 2 = 1 + (streamOf m s).length + 1 by omega,
    run_add _ 1 _ _ (hrun _ le_rfl), run_succ_next 0 (step_delivering_sendRsp (hinv.phase.idle hbusy)),
    delivered, ← hticks]
  rfl

/-- Settles O58: a `Serving` run whose host has no further response is delivering. -/
theorem responseFollowsTheLastByte : Obligations.ResponseFollowsTheLastByte := by
  intro s t m n hinv hl hbusy hw hfree hrun hhost
  obtain ⟨u, hu, hrun⟩ := run_succ_inv n hrun
  have hstart := step_serialize hinv hl hbusy (ResetFree.tick hfree) hw
  obtain rfl := next_inj.1 (hu.symm.trans hstart)
  have hserving : Serving (streamOf m s) s t :=
    run_keeps _ (fun _ _ h hs => h.step hs) n _ t
      ⟨hinv.step hu, ResetFree.step hfree hu, .inl ⟨0, Nat.zero_le _, rfl⟩⟩ hrun
  rcases hserving.progress with ⟨k, hk, ht⟩ | hmore
  · refine ⟨k, (transfersOf (streamOf m s)).take k, hk, ?_⟩
    rw [ht]
    refine ⟨rfl, by rw [List.map_take, data_transfersOf], fun j o ho => ?_, rfl, rfl, hl, rfl, rfl,
      rfl, rfl, rfl, rfl⟩
    rw [List.getElem?_take] at ho
    split at ho
    · exact last_transfersOf _ j o ho
    · cases ho
  · exact absurd (congrArg List.length hhost) hmore.ne'

end Sys2Proof.Machine

/-! PROOFS. The statements of 60_exceptions: when CREATE lacks the capacity, the commands that report an
error, the priority list as the order of each command's checks, and the word after one that failed. -/

namespace Sys2Proof.Machine

/-! ## ERR_CAPACITY, R207 -/

/-- Settles O25: past its other checks CREATE fails or succeeds by the capacity alone, and no buffer has more
than 65535 * 65535 entries. -/
theorem capacityErrorNeedsASmallerStore : Obligations.CapacityErrorNeedsASmallerStore := by
  intro s e w h f0 f1 f2 hw hh hlegal
  obtain ⟨-, -, hfull, hfits, -⟩ := createBuildsTheBufferOrRefuses s e w h f0 f1 f2
  refine ⟨⟨hfull hw hh hlegal, fun hanswer => ?_⟩, fun hcap => ?_⟩
  · by_contra hroom
    obtain ⟨m, hbuilt, -⟩ := hfits hw hh hlegal (not_lt.1 hroom)
    have hrsp : some (rspNumber 7 0) = some (rspNumber 0 0) :=
      congrArg State.rspq (next_inj.1 (hanswer.symm.trans hbuilt))
    exact absurd hrsp (by decide)
  · have hroom : w.toNat * h.toNat ≤ 4294836225 :=
      Nat.mul_le_mul (Nat.le_of_lt_succ w.isLt) (Nat.le_of_lt_succ h.isLt)
    obtain ⟨m, hbuilt, -⟩ := hfits hw hh hlegal (hroom.trans_eq hcap.symm)
    exact ⟨_, hbuilt, rfl, rfl⟩

/-! ## A command that reports an error, R208 -/

theorem rspStatus_of_eq_ok {d : RspData} {r : RspWord} (h : some (responseWord .ok d) = some r) :
    rspStatus r = 0 := by
  rw [← Option.some.inj h, rspStatus_responseWord]
  rfl

/-- A command writes the buffer only together with the STATUS 0, and starts a stream without a response. -/
theorem exec_failed {s t : State} {i : Instr} {r : RspWord} (hnone : s.rspq = none)
    (he : exec i s = .next t) (hr : t.rspq = some r) (hst : rspStatus r ≠ 0) :
    t = { s with rspq := some r } := by
  rcases exec_next i s t he with ⟨st, d, rfl⟩ | ⟨-, k, p, q, -, -, rfl⟩ |
    ⟨e, w, ht, p, -, -, -, -, rfl⟩ | ⟨-, m, rfl⟩
  · rw [← hr]
    rfl
  · exact absurd (rspStatus_of_eq_ok hr) hst
  · exact absurd (rspStatus_of_eq_ok hr) hst
  · cases hnone.symm.trans hr

theorem perform_failed {s t : State} {w : CmdWord} {r : RspWord} (hnone : s.rspq = none)
    (hp : perform w s = .next t) (hr : t.rspq = some r) (hst : rspStatus r ≠ 0) :
    t = { s with rspq := some r } := by
  rcases perform_next w s t hp with ⟨i, -, hi⟩ | ⟨x, -, rfl⟩
  · exact exec_failed hnone hi hr hst
  · rw [← hr]
    rfl

/-- A word is taken only by a block that is not busy, and the step performs it. -/
theorem step_of_cmdTransfer {s : State} {w : CmdWord} (h : s.cmdTransfer = some w) :
    s.busy = false ∧ step s = perform w s.advance.takeCommand := by
  rcases step_cases s with ⟨hrst, -⟩ | ⟨-, v, hbusy, -, hv, hstep⟩ | ⟨-, hno, -⟩ |
    ⟨-, hno, -⟩ | ⟨-, hno, -⟩
  · simp [State.cmdTransfer, State.cmdReady, hrst] at h
  · obtain rfl := Option.some.inj (hv.symm.trans h)
    exact ⟨hbusy, hstep⟩
  · cases hno.symm.trans h
  · cases hno.symm.trans h
  · cases hno.symm.trans h

/-- Settles O37: `perform_failed`, in the idle block that took the word. -/
theorem failedCommandChangesNothing : Obligations.FailedCommandChangesNothing := by
  intro s t w r hinv hw hs hr hst
  obtain ⟨hbusy, hstep⟩ := step_of_cmdTransfer hw
  obtain ⟨-, -, hnone, -⟩ := hinv.phase.idle hbusy
  exact perform_failed (s := s.advance.takeCommand) hnone (hstep.symm.trans hs) hr hst

/-! ## The priority list in each command's checks, R210 -/

/-- The first entry of a list of errors that applies, 0 if none does. -/
def firstApplicable : List (Nat × Bool) → Nat
  | [] => 0
  | e :: l => if e.2 then e.1 else firstApplicable l

theorem firstError_eq (s : State) (w : CmdWord) : firstError s w = firstApplicable (errorList s w) := by
  unfold firstError
  induction errorList s w with
  | nil => rfl
  | cons e l ih => cases he : e.2 <;> simp [firstApplicable, he, ih]

/-- The STATUS of an access whose checks after its coordinates give `st`. -/
def accessError (s : State) (x y : Half) (st : Nat) : Nat :=
  if s.live = false then 4
  else if s.width.toNat ≤ x.toNat ∨ s.height.toNat ≤ y.toNat then 2
  else st

/-- The STATUS of a command by its own checks in their order, 0 if it passes them all. -/
def commandError (s : State) : Instr → Nat
  | .create c w h v0 v1 v2 =>
    match Enc.ofCode? c with
    | none => 5
    | some e =>
      if w = 0 ∨ h = 0 then 1
      else if valueOK e ⟨v0, v1, v2⟩ = false then 6
      else if s.cfg.pixCapacity < w.toNat * h.toNat then 7
      else 0
  | .get x y => accessError s x y 0
  | .set x y v0 v1 v2 => accessError s x y (if valueOK s.enc ⟨v0, v1, v2⟩ = false then 6 else 0)
  | .getch x y ch => accessError s x y (if s.enc.componentCount ≤ ch.toNat then 3 else 0)
  | .setch x y ch v =>
    accessError s x y
      (if s.enc.componentCount ≤ ch.toNat then 3 else if s.enc.chanMax < v.toNat then 6 else 0)
  | .info => 0
  | .sert => if s.live = false then 4 else 0
  | .serb => if s.live = false then 4 else 0

/-- Exactly one encoding has the code. -/
theorem any_code_eq (e : Enc) (P : Enc → Bool) :
    ([Enc.bilevel, .gray8, .gray16, .rgb8, .rgb16].any fun e' =>
      e'.code.toNat == e.code.toNat && P e') = P e := by
  cases e <;> simp [Enc.code]

theorem extractLsb'_V0 (w : CmdWord) : w.extractLsb' 40 16 = fieldV0 w := rfl

theorem extractLsb'_V1 (w : CmdWord) : w.extractLsb' 56 16 = fieldV1 w := rfl

theorem extractLsb'_V2 (w : CmdWord) : w.extractLsb' 72 16 = fieldV2 w := rfl

/-- On the word of a command, the list of R210 is the command's own checks in their order. -/
theorem firstError_encode (s : State) (i : Instr) (hwf : i.wf = true) :
    firstError s (encode i) = commandError s i := by
  simp only [firstError_eq, errorList, legalWord_encode i hwf, ← fieldOP_toNat, ← fieldSEL_toNat,
    ← fieldA_toNat, ← fieldB_toNat, extractLsb'_V0, extractLsb'_V1, extractLsb'_V2, ← valueOK_iff,
    Bool.decide_eq_true]
  cases i with
  | create c w h v0 v1 v2 =>
    obtain ⟨e, rfl⟩ := (Enc.exists_code_iff c).2 (of_decide_eq_true hwf)
    simp only [encode, fieldSEL_packWord, append_enc_toNat, any_code_eq]
    simp [firstApplicable, commandError, BitVec.toNat_eq]
  | get x y => simp [encode, firstApplicable, commandError, accessError]
  | set x y v0 v1 v2 => simp [encode, firstApplicable, commandError, accessError]
  | getch x y ch => simp [encode, firstApplicable, commandError, accessError]
  | setch x y ch v => simp [encode, firstApplicable, commandError, accessError]
  | info => simp [encode, firstApplicable, commandError]
  | sert => simp [encode, firstApplicable, commandError]
  | serb => simp [encode, firstApplicable, commandError]

theorem firstError_illegal {w : CmdWord} (h : legalWord w = false) (s : State) : firstError s w = 5 := by
  simp [firstError_eq, errorList, firstApplicable, h]

/-! ## The answer to every word, R200, R210 -/

/-- DATA of the STATUS `st` of a command with the operands `a` and `b` (60_exceptions R200 to R202). -/
def errorData (s : State) (a b : Half) (st : Nat) : Nat :=
  if st = 1 then (if a = 0 then 1 else 0) + (if b = 0 then 2 else 0)
  else if st = 2 then
    (if s.width.toNat ≤ a.toNat then 1 else 0) + (if s.height.toNat ≤ b.toNat then 2 else 0)
  else 0

theorem errorDetail_eq (s : State) (w : CmdWord) :
    errorDetail s w = errorData s (fieldA w) (fieldB w) (firstError s w) := by
  simp only [errorDetail, errorData, ← fieldA_toNat, ← fieldB_toNat, BitVec.toNat_eq]
  rfl

/-- The response in `t`, waiting or held back by a stream (10_state R36). -/
abbrev Answered (t : State) (r : RspWord) : Prop := t.rspq = some r ∨ t.rspq = none ∧ t.held = some r

/-- A command with the operands `a` and `b` answers in `s` with the STATUS `st`: with 0 it has succeeded,
and with any other it has changed nothing but RSPQ. -/
inductive Reports (s : State) (a b : Half) (o : Host.Outcome State Fault Refusal) : Nat → Prop
  | success {t : State} (d : Nat) (h : o = .next t) (hr : Answered t (rspNumber 0 d)) :
    Reports s a b o 0
  | error {st : Nat} (hst : st ≠ 0) (hlt : st < 16)
      (h : o = .next { s with rspq := some (rspNumber st (errorData s a b st)) }) :
    Reports s a b o st

section
variable {s : State} {a b : Half}

theorem Reports.answered {o : Host.Outcome State Fault Refusal} {st : Nat} (h : Reports s a b o st) :
    ∃ t r, o = .next t ∧ Answered t r ∧ rspStatus r = st ∧
      (st ≠ 0 → r = rspNumber st (errorData s a b st)) := by
  cases h with
  | success d ho hr => exact ⟨_, _, ho, hr, rspStatus_rspNumber 0 d (by decide), absurd rfl⟩
  | error hst hlt ho => exact ⟨_, _, ho, .inl rfl, rspStatus_rspNumber st _ hlt, fun _ => rfl⟩

theorem Reports.failed {o : Host.Outcome State Fault Refusal} {st : Nat} (h : Reports s a b o st)
    (hst : st ≠ 0) : ∃ r, rspStatus r = st ∧ o = .next { s with rspq := some r } := by
  cases h with
  | success => exact absurd rfl hst
  | error _ hlt ho => exact ⟨_, rspStatus_rspNumber st _ hlt, ho⟩

/-- The checks that every access begins with. -/
theorem reports_access {i : Instr} {x y : Half} {st : Nat}
    (hdead : s.live = false → RespondsOnly i s 4 0)
    (hout : s.live = true → (s.width.toNat ≤ x.toNat ∨ s.height.toNat ≤ y.toNat) →
      RespondsOnly i s 2
        ((if s.width.toNat ≤ x.toNat then 1 else 0) + (if s.height.toNat ≤ y.toNat then 2 else 0)))
    (hin : s.live = true → x.toNat < s.width.toNat → y.toNat < s.height.toNat →
      Reports s x y (exec i s) st) : Reports s x y (exec i s) (accessError s x y st) := by
  unfold accessError
  split
  case isTrue hl => exact .error (by decide) (by decide) (hdead hl)
  case isFalse hl =>
    rw [Bool.not_eq_false] at hl
    split
    case isTrue ho => exact .error (by decide) (by decide) (hout hl ho)
    case isFalse ho =>
      rw [not_or, not_le, not_le] at ho
      obtain ⟨hx, hy⟩ := ho
      exact hin hl hx hy

theorem reports_create (e : Enc) (w h v0 v1 v2 : Half) :
    Reports s w h (exec (.create e.code w h v0 v1 v2) s)
      (commandError s (.create e.code w h v0 v1 v2)) := by
  obtain ⟨hzero, hbad, hfull, hfits, -⟩ := createBuildsTheBufferOrRefuses s e w h v0 v1 v2
  simp only [← valueOK_iff, Bool.not_eq_true] at hbad hfull hfits
  simp only [commandError, Enc.ofCode?_code]
  split
  case isTrue hz => exact .error (by decide) (by decide) (hzero hz)
  case isFalse hz =>
    obtain ⟨hw, hh⟩ := not_or.1 hz
    split
    case isTrue hv => exact .error (by decide) (by decide) (hbad hw hh hv)
    case isFalse hv =>
      rw [Bool.not_eq_false] at hv
      split
      case isTrue hcap => exact .error (by decide) (by decide) (hfull hw hh hv hcap)
      case isFalse hcap =>
        obtain ⟨m, hbuilt, -⟩ := hfits hw hh hv (not_lt.1 hcap)
        exact .success 0 hbuilt (.inl rfl)

section
variable (hb : BufferInv s)
include hb

theorem reports_get (x y : Half) : Reports s x y (exec (.get x y) s) (commandError s (.get x y)) := by
  obtain ⟨hdead, hout, hread, -⟩ := getAnswersThePixel s x y
  refine reports_access hdead hout fun hl hx hy => ?_
  obtain ⟨p, -, hp⟩ := hread hb hl hx hy
  exact .success _ hp (.inl rfl)

theorem reports_set (x y v0 v1 v2 : Half) :
    Reports s x y (exec (.set x y v0 v1 v2) s) (commandError s (.set x y v0 v1 v2)) := by
  obtain ⟨hdead, hout, hbad, hwrite, -⟩ := setWritesThePixelOrRefuses s x y v0 v1 v2
  simp only [← valueOK_iff, Bool.not_eq_true] at hbad hwrite
  refine reports_access hdead hout fun hl hx hy => ?_
  split
  case isTrue hv => exact .error (by decide) (by decide) (hbad hl hx hy hv)
  case isFalse hv =>
    obtain ⟨m, hm, -⟩ := hwrite hb hl hx hy (Bool.not_eq_false _ ▸ hv)
    exact .success 0 hm (.inl rfl)

theorem reports_getch (x y : Half) (ch : BitVec 4) :
    Reports s x y (exec (.getch x y ch) s) (commandError s (.getch x y ch)) := by
  obtain ⟨hdead, hout, hchannel, hread, -⟩ := getchAnswersTheChannel s x y ch
  refine reports_access hdead hout fun hl hx hy => ?_
  split
  case isTrue hch => exact .error (by decide) (by decide) (hchannel hl hx hy hch)
  case isFalse hch =>
    obtain ⟨p, v, -, -, -, hp⟩ := hread hb hl hx hy (not_le.1 hch)
    exact .success _ hp (.inl rfl)

theorem reports_setch (x y : Half) (ch : BitVec 4) (v : Half) :
    Reports s x y (exec (.setch x y ch v) s) (commandError s (.setch x y ch v)) := by
  obtain ⟨hdead, hout, hchannel, hbad, hwrite, -⟩ := setchWritesTheChannelOrRefuses s x y ch v
  refine reports_access hdead hout fun hl hx hy => ?_
  split
  case isTrue hch => exact .error (by decide) (by decide) (hchannel hl hx hy hch)
  case isFalse hch =>
    rw [not_le] at hch
    split
    case isTrue hv => exact .error (by decide) (by decide) (hbad hl hx hy hch hv)
    case isFalse hv =>
      obtain ⟨m, p, -, hm, -⟩ := hwrite hb hl hx hy hch (not_lt.1 hv)
      exact .success 0 hm (.inl rfl)

theorem reports_serialize (hnone : s.rspq = none) (m : Mode) :
    Reports s a b (exec (serializeCommand m) s) (if s.live = false then 4 else 0) := by
  rw [exec_serializeCommand]
  split
  case isTrue hl =>
    exact .error (by decide) (by decide)
      ((withBuffer_dead s _ hl).trans (raiseErr_zero .errNoBuffer s))
  case isFalse hl =>
    rw [Bool.not_eq_false] at hl
    exact .success _ (serialize_complete m hl (hb.storeComplete hl))
      (.inr ⟨hnone, congrArg some (responseWord_length_streamOf hb hl m)⟩)

theorem reports_exec (hnone : s.rspq = none) (i : Instr) (hwf : i.wf = true) :
    Reports s (fieldA (encode i)) (fieldB (encode i)) (exec i s) (commandError s i) := by
  cases i with
  | create c w h v0 v1 v2 =>
    obtain ⟨e, rfl⟩ := (Enc.exists_code_iff c).2 (of_decide_eq_true hwf)
    simpa [encode] using reports_create e w h v0 v1 v2
  | get x y => simpa [encode] using reports_get hb x y
  | set x y v0 v1 v2 => simpa [encode] using reports_set hb x y v0 v1 v2
  | getch x y ch => simpa [encode] using reports_getch hb x y ch
  | setch x y ch v => simpa [encode] using reports_setch hb x y ch v
  | info => exact .success _ (respondsOnly_info s) (.inl rfl)
  | sert => exact reports_serialize hb hnone .text
  | serb => exact reports_serialize hb hnone .binary

theorem reports_perform (hnone : s.rspq = none) (w : CmdWord) :
    Reports s (fieldA w) (fieldB w) (perform w s) (firstError s w) := by
  cases hlegal : legalWord w with
  | false =>
    rw [firstError_illegal hlegal]
    exact .error (by decide) (by decide) (perform_illegal hlegal s)
  | true =>
    obtain ⟨i, hwf, rfl⟩ := exists_encode_of_legalWord hlegal
    rw [firstError_encode s i hwf, perform_of_decode (decode_encode i hwf)]
    exact reports_exec hb hnone i hwf

end
end

/-- Settles O38: `reports_perform`, with the DATA of its STATUS. -/
theorem firstApplicableErrorIsReported : Obligations.FirstApplicableErrorIsReported := by
  intro s w hb hnone _
  rw [errorDetail_eq]
  exact (reports_perform hb hnone w).answered

/-! ## The word after one that failed, R209 -/

theorem complete_of_idle {s : State} (h : Idle s) (r : RspWord) :
    { s with rspq := some r }.complete = { s with hostGot := s.hostGot ++ [r] } := by
  obtain ⟨hbusy, hout, hrsp, hheld⟩ := h
  simp [State.complete, hbusy, hout, hrsp, hheld, transfersOf]

/-- A word that reports an error has, as a whole, no other effect than its response. -/
theorem atomically_failed {s : State} {w : CmdWord} (hb : BufferInv s) (hidle : Idle s)
    (hw : firstError s w ≠ 0) :
    ∃ r, rspStatus r = firstError s w ∧
      atomically s w = { s with hostGot := s.hostGot ++ [r] } := by
  have hnone : s.rspq = none := by
    obtain ⟨-, -, hnone, -⟩ := hidle
    exact hnone
  obtain ⟨r, hst, hp⟩ := (reports_perform hb hnone w).failed hw
  exact ⟨r, hst, (atomically_of_next hp).trans (complete_of_idle hidle r)⟩

/-- A word performed whole does not depend on the responses that the host has received, and adds one to
them. -/
theorem atomically_hostGot {s : State} (hb : BufferInv s) (hnone : s.rspq = none) (v : CmdWord) :
    ∃ q, ∀ g, atomically { s with hostGot := g } v =
      { atomically s v with hostGot := g ++ [q] } := by
  obtain ⟨t, q, hp, hq, -⟩ := (reports_perform hb hnone v).answered
  obtain ⟨hcmdq, -⟩ := perform_environment hp
  refine ⟨q, fun g => ?_⟩
  have hmap : perform v { s with hostGot := g } =
      mapNext (withPort s.busy s.cmdq g) (perform v s) := perform_map s.busy s.cmdq g s v
  have hresponse : t.rspq.or t.held = some q := by
    rcases hq with hq | ⟨hq, hheld⟩
    · rw [hq, Option.some_or]
    · rw [hq, hheld, Option.none_or]
  rw [hp] at hmap
  rw [atomically_of_next hp, atomically_of_next hmap]
  simp only [State.complete, hresponse, hcmdq, Option.toList_some]

/-- Settles O39: `atomically_failed` for the first word, `atomically_hostGot` for the next. -/
theorem errorsAreNotLatched : Obligations.ErrorsAreNotLatched := by
  intro s w v hb hidle hw
  obtain ⟨r, hst, hfailed⟩ := atomically_failed hb hidle hw
  obtain ⟨-, -, hnone, -⟩ := hidle
  obtain ⟨q, hnext⟩ := atomically_hostGot hb hnone v
  refine ⟨r, q, hst, congrArg State.hostGot (hnext s.hostGot), ?_⟩
  rw [hfailed, hnext, List.append_assoc]
  rfl

end Sys2Proof.Machine

/-! PROOFS. The statements of 70_reset_and_hazards: the step with `rst` at 1, the store that no command reaches
without a buffer, the block under back-pressure, and a serialization that a reset aborts. -/

namespace Sys2Proof.Machine

/-! ## The reset step, R230, R233 -/

/-- Settles O2: `step_reset`, and the wait of a block that holds nothing and is presented nothing. -/
theorem resetStepWipesTheBlockAndTransfersNothing :
    Obligations.ResetStepWipesTheBlockAndTransfersNothing := by
  intro s hrst
  obtain ⟨-, -, hlevels, -⟩ := resetLeavesTheStatedValues
  obtain ⟨hcmd, hrsp, hout, hlast⟩ := hlevels s hrst
  refine ⟨hcmd, hrsp, hout, hlast, if_pos hrst, if_pos hrst, _, step_reset s hrst,
    rfl, rfl, rfl, rfl, rfl, rfl, rfl, rfl, rfl, rfl, fun hfree hnone => ?_⟩
  exact step_wait _ hfree (.inr hnone) (.inl rfl) (.inl rfl)

/-! ## The store of a block without a buffer, R231 -/

/-- The state with another pixel store. -/
def State.withStore (s : State) (m : Memory) : State := { s with pix := m }

section
variable (s : State) (m : Memory)

@[simp] theorem State.withStore_tick : (s.withStore m).tick = s.tick := rfl
@[simp] theorem State.withStore_cmdTransfer : (s.withStore m).cmdTransfer = s.cmdTransfer := rfl
@[simp] theorem State.withStore_outTransfer : (s.withStore m).outTransfer = s.outTransfer := rfl
@[simp] theorem State.withStore_rspTransfer : (s.withStore m).rspTransfer = s.rspTransfer := rfl
@[simp] theorem State.withStore_advance : (s.withStore m).advance = s.advance.withStore m := rfl
@[simp] theorem State.withStore_sendByte (b : OutTransfer) :
    (s.withStore m).sendByte b = (s.sendByte b).withStore m := rfl
@[simp] theorem State.withStore_sendRsp (r : RspWord) :
    (s.withStore m).sendRsp r = (s.sendRsp r).withStore m := rfl

end

section
variable {s t u : State}

/-- A command without a buffer either answers whatever the store holds, or, as a CREATE, replaces the store. -/
theorem exec_of_dead (hl : s.live = false) (i : Instr) :
    (∃ st d, ∀ m, exec i (s.withStore m) = .next ((s.withStore m).setResponse st d)) ∨
      ∃ t, ∀ m, exec i (s.withStore m) = .next t := by
  cases i with
  | create c w h v0 v1 v2 =>
    simp only [exec, execCreate]
    split
    · exact .inl ⟨_, _, fun _ => rfl⟩
    · next e _ =>
      by_cases hz : (w == 0 || h == 0) = true
      · exact .inl ⟨_, _, fun m => if_pos hz⟩
      by_cases hv : (!valueOK e ⟨v0, v1, v2⟩) = true
      · exact .inl ⟨_, _, fun m => (if_neg hz).trans (if_pos hv)⟩
      by_cases hcap : s.cfg.pixCapacity < w.toNat * h.toNat
      · exact .inl ⟨_, _, fun m => (if_neg hz).trans ((if_neg hv).trans (if_pos hcap))⟩
      · exact .inr ⟨(s.newBuffer e w h ⟨v0, v1, v2⟩).setResponse .ok 0,
          fun m => (if_neg hz).trans ((if_neg hv).trans (if_neg hcap))⟩
  | get x y => exact .inl ⟨_, _, fun m => withCoords_dead (s.withStore m) x y _ hl⟩
  | set x y v0 v1 v2 => exact .inl ⟨_, _, fun m => withCoords_dead (s.withStore m) x y _ hl⟩
  | getch x y ch => exact .inl ⟨_, _, fun m => withCoords_dead (s.withStore m) x y _ hl⟩
  | setch x y ch v => exact .inl ⟨_, _, fun m => withCoords_dead (s.withStore m) x y _ hl⟩
  | info => exact .inl ⟨.ok, infoData s, fun _ => rfl⟩
  | sert => exact .inl ⟨_, _, fun m => withBuffer_dead (s.withStore m) _ hl⟩
  | serb => exact .inl ⟨_, _, fun m => withBuffer_dead (s.withStore m) _ hl⟩

theorem perform_of_dead (hl : s.live = false) (w : CmdWord) :
    (∃ st d, ∀ m, perform w (s.withStore m) = .next ((s.withStore m).setResponse st d)) ∨
      ∃ t, ∀ m, perform w (s.withStore m) = .next t := by
  unfold perform
  cases decode w with
  | ok i => exact exec_of_dead hl i
  | error r => exact .inl ⟨_, _, fun _ => rfl⟩

/-- A step that takes no word neither reads nor writes the store. -/
theorem step_withStore_of_no_word (hrst : s.tick.rst = false) (hw : s.cmdTransfer = none) :
    ∃ t : State, t.live = s.live ∧ ∀ m, step (s.withStore m) = .next (t.withStore m) := by
  cases hout : s.outTransfer with
  | some b => exact ⟨s.advance.sendByte b, rfl, fun m => by simp [step, transition, hrst, hw, hout]⟩
  | none =>
    cases hrsp : s.rspTransfer with
    | some r =>
      exact ⟨s.advance.sendRsp r, rfl, fun m => by simp [step, transition, hrst, hw, hout, hrsp]⟩
    | none => exact ⟨s.advance, rfl, fun m => by simp [step, transition, hrst, hw, hout, hrsp]⟩

/-- The two states differ at most in a store that no command reaches. -/
def SameButDeadStore (s u : State) : Prop := u = s ∨ s.live = false ∧ ∃ m, u = s.withStore m

theorem SameButDeadStore.step (h : SameButDeadStore s u) (hs : step s = .next t) :
    ∃ v, step u = .next v ∧ SameButDeadStore t v := by
  rcases h with rfl | ⟨hl, m, rfl⟩
  · exact ⟨t, hs, .inl rfl⟩
  cases hrst : s.tick.rst with
  | true =>
    obtain rfl := next_inj.1 ((step_reset s hrst).symm.trans hs)
    exact ⟨_, step_reset (s.withStore m) hrst, .inl rfl⟩
  | false =>
    cases hw : s.cmdTransfer with
    | some w =>
      obtain ⟨-, hstep⟩ := step_of_cmdTransfer hw
      obtain ⟨-, hstep'⟩ := step_of_cmdTransfer (s := s.withStore m) hw
      rcases perform_of_dead (s := s.advance.takeCommand) hl w with ⟨st, d, hp⟩ | ⟨v, hp⟩
      · obtain rfl := next_inj.1 ((hp s.pix).symm.trans (hstep.symm.trans hs))
        exact ⟨_, hstep'.trans (hp m), .inr ⟨hl, m, rfl⟩⟩
      · obtain rfl := next_inj.1 ((hp s.pix).symm.trans (hstep.symm.trans hs))
        exact ⟨_, hstep'.trans (hp m), .inl rfl⟩
    | none =>
      obtain ⟨v, hlive, hstep⟩ := step_withStore_of_no_word hrst hw
      obtain rfl := next_inj.1 ((hstep s.pix).symm.trans hs)
      exact ⟨_, hstep m, .inr ⟨hlive.trans hl, m, rfl⟩⟩

theorem SameButDeadStore.run (n : Nat) : ∀ {s u : State}, SameButDeadStore s u →
    run n s = .next t → ∃ v, run n u = .next v ∧ SameButDeadStore t v := by
  induction n with
  | zero =>
    intro s u h hs
    obtain rfl := next_inj.1 hs
    exact ⟨u, rfl, h⟩
  | succ n ih =>
    intro s u h hs
    obtain ⟨s', hstep, hs'⟩ := run_succ_inv n hs
    obtain ⟨u', hstep', h'⟩ := h.step hstep
    obtain ⟨v, hv, htv⟩ := ih h' hs'
    exact ⟨v, (run_succ_next n hstep').trans hv, htv⟩

end

/-- Settles O4: reset leaves no buffer, and `SameButDeadStore` holds along the two runs. -/
theorem storeContentsAfterResetAreUnobservable :
    Obligations.StoreContentsAfterResetAreUnobservable := by
  intro c m ws ts n hc
  obtain ⟨t, ht, -⟩ := run_start hc ws ts n
  have hstart : SameButDeadStore (State.start c ws ts) { State.start c ws ts with pix := m } :=
    .inr ⟨rfl, m, rfl⟩
  obtain ⟨u, hu, htu⟩ := hstart.run n ht
  refine ⟨t, u, ht, hu, ?_⟩
  rcases htu with rfl | ⟨-, m', rfl⟩
  · exact ⟨rfl, rfl, rfl, rfl, rfl⟩
  · exact ⟨rfl, rfl, rfl, rfl, rfl⟩

/-! ## Back-pressure, R241, R242 -/

/-- A busy block waits while the receiver of what it presents is not ready. -/
theorem step_stalled {s : State} (hphase : PhaseInv s) (hbusy : s.busy = true)
    (hrst : s.tick.rst = false) (hrsp : s.outq = [] → s.tick.rspReady = false)
    (hout : s.outq ≠ [] → s.tick.outReady = false) : step s = .next s.advance := by
  by_cases hempty : s.outq = []
  · exact step_wait s hrst (.inl hbusy) (.inl hempty) (.inr (hrsp hempty))
  · obtain ⟨-, -, hnone, -⟩ := hphase.streaming hempty
    exact step_wait s hrst (.inl hbusy) (.inr (hout hempty)) (.inl hnone)

theorem tick_of_getElem?_zero {s : State} {tk : Tick} (h : s.ticks[0]? = some tk) : s.tick = tk := by
  rw [State.tick, List.headD_eq_head?_getD, List.head?_eq_getElem?, h, Option.getD_some]

/-- Settles O13: `step_stalled`, along the schedule. -/
theorem backPressureStopsTheBlock : Obligations.BackPressureStopsTheBlock := by
  intro n
  induction n with
  | zero => exact fun s _ _ _ => rfl
  | succ n ih =>
    intro s hphase hbusy hticks
    obtain ⟨tk, htk, hrst, hrsp, hout⟩ := hticks 0 n.succ_pos
    obtain rfl := tick_of_getElem?_zero htk
    have hrest := ih s.advance hphase hbusy fun k hk => by
      simpa [List.getElem?_tail] using hticks (k + 1) (Nat.succ_lt_succ hk)
    rw [run_succ_next n (step_stalled hphase hbusy hrst hrsp hout), hrest]
    simp [State.advance]

/-! ## A reset during a serialization, R232 -/

section
variable {bytes : List Byte} {s t u : State} {k : Nat} {ts : List Tick} {o : OutTransfer}

theorem last_of_mem_take_transfersOf (hk : k < bytes.length)
    (ho : o ∈ (transfersOf bytes).take k) : o.last = false := by
  obtain ⟨j, hj, hget⟩ := List.mem_take_iff_getElem.1 ho
  have hlast := last_transfersOf bytes j o (List.getElem?_eq_some_iff.2 ⟨by omega, hget⟩)
  rw [← Bool.not_eq_true, hlast]
  omega

/-- While the sink is ready each step sends a byte, whatever input levels follow. -/
theorem run_delivering_go (k : Nat) : ∀ ts : List Tick, k ≤ bytes.length →
    run k (delivering bytes s 0 (List.replicate k Tick.go ++ ts)) =
      .next (delivering bytes s k ts) := by
  induction k with
  | zero => exact fun _ _ => rfl
  | succ k ih =>
    intro ts hk
    have hdrop := List.drop_eq_getElem_cons hk
    rw [List.replicate_succ', List.append_assoc, List.singleton_append,
      run_add k 1 _ _ (ih (Tick.go :: ts) (Nat.le_of_succ_le hk)),
      run_succ_next 0 (step_sendByte _ _ _ rfl (.inl rfl) hdrop rfl), delivering_sendByte hdrop]
    rfl

/-- `t` has been reset: since `s` the sink has had `sent` and the host nothing, and nothing is left to send. -/
structure Aborted (s : State) (sent : List OutTransfer) (t : State) : Prop where
  sinkGot : t.sinkGot = s.sinkGot ++ sent
  hostGot : t.hostGot = s.hostGot
  outq : t.outq = []
  rspq : t.rspq = none
  held : t.held = none
  busy : t.busy = false
  live : t.live = false

theorem step_delivering_reset (hrst : (delivering bytes s k ts).tick.rst = true) :
    ∃ t, step (delivering bytes s k ts) = .next t ∧ Aborted s ((transfersOf bytes).take k) t :=
  ⟨_, step_reset _ hrst, rfl, rfl, rfl, rfl, rfl, rfl, rfl⟩

/-- No step takes a response back from the host. -/
theorem step_hostGot_prefix (hs : step s = .next t) : s.hostGot <+: t.hostGot := by
  rcases step_next hs with ⟨-, rfl⟩ | ⟨-, -, w, -, hperform⟩ | ⟨-, b, rest, -, rfl⟩ |
    ⟨-, r, -, rfl⟩ | ⟨-, rfl⟩
  · exact List.prefix_rfl
  · obtain ⟨-, -, hgot, -⟩ := perform_environment hperform
    exact hgot ▸ List.prefix_rfl
  · exact List.prefix_rfl
  · exact List.prefix_append _ _
  · exact List.prefix_rfl

theorem run_hostGot_prefix (n : Nat) (hrun : run n s = .next t) : s.hostGot <+: t.hostGot :=
  run_keeps (fun u => s.hostGot <+: u.hostGot) (fun _ _ h hs => h.trans (step_hostGot_prefix hs)) n s t
    List.prefix_rfl hrun

/-- A schedule without a reset in its first `n + 1` steps, taken apart at the first. -/
theorem resetFree_take_succ {n : Nat} (h : ∀ tk ∈ s.ticks.take (n + 1), tk.rst = false) :
    s.tick.rst = false ∧ ∀ tk ∈ s.ticks.tail.take n, tk.rst = false := by
  unfold State.tick
  cases hticks : s.ticks with
  | nil => exact ⟨rfl, by simp⟩
  | cons tk rest => simpa [hticks] using h

/-- While the host has had no further response and no reset has come, the bytes are being delivered. -/
theorem run_delivering_resetFree (n : Nat) : ∀ {k : Nat} {ts : List Tick}, k ≤ bytes.length →
    (∀ tk ∈ ts.take n, tk.rst = false) → run n (delivering bytes s k ts) = .next u →
    u.hostGot = s.hostGot → ∃ k' ≤ bytes.length, u = delivering bytes s k' (ts.drop n) := by
  induction n with
  | zero =>
    intro k ts hk _ hrun _
    exact ⟨k, hk, (next_inj.1 hrun).symm⟩
  | succ n ih =>
    intro k ts hk hfree hrun hhost
    obtain ⟨v, hs, hrun⟩ := run_succ_inv n hrun
    obtain ⟨hrst, hfree⟩ := resetFree_take_succ (s := delivering bytes s k ts) hfree
    rcases step_delivering hk hrst hs with ⟨k', hk', rfl⟩ | hgot
    · rw [← List.drop_tail]
      exact ih hk' hfree hrun hhost
    · have hlen := (run_hostGot_prefix n hrun).length_le
      simp [hgot, hhost] at hlen

/-- `u` holds nothing, is presented nothing, and nothing has been transferred since `s`. -/
structure Silent (s u : State) : Prop where
  cmdq : u.cmdq = []
  outq : u.outq = []
  rspq : u.rspq = none
  sinkGot : u.sinkGot = s.sinkGot
  hostGot : u.hostGot = s.hostGot

/-- A silent block stays silent, with `rst` at 0 and at 1. -/
theorem Silent.step_total (h : Silent s u) : ∃ v, step u = .next v ∧ Silent s v := by
  obtain ⟨hcmd, hout, hrsp, hsink, hhost⟩ := h
  cases hrst : u.tick.rst with
  | true => exact ⟨_, step_reset u hrst, hcmd, rfl, rfl, hsink, hhost⟩
  | false =>
    have hnone : u.presented = none := by simp [State.presented, hcmd]
    exact ⟨_, step_wait u hrst (.inr hnone) (.inl hout) (.inl hrsp), hcmd, hout, hrsp, hsink, hhost⟩

theorem presented_of_cmdTransfer {w : CmdWord} (h : s.cmdTransfer = some w) :
    s.presented = some w := by
  unfold State.cmdTransfer at h
  split at h
  · exact h
  · cases h

end

/-- Settles O59: the word taken, `k` bytes sent, and the reset step. -/
theorem resetAbortsASerialization : Obligations.ResetAbortsASerialization := by
  intro s m k r hinv hl hbusy hk hr hticks hw
  rw [Nat.add_comm, List.replicate_succ, List.cons_append] at hticks
  have hstart := step_serialize hinv hl hbusy (by rw [State.tick, hticks]; rfl) hw
  rw [hticks, List.tail_cons] at hstart
  obtain ⟨t, hreset, hab⟩ :=
    step_delivering_reset (bytes := streamOf m s) (s := s) (k := k) (ts := [r]) hr
  refine ⟨t, _, ?_, hab.sinkGot, by rw [List.map_take, data_transfersOf],
    fun o ho => last_of_mem_take_transfersOf hk ho, hab.hostGot, hab.outq, hab.rspq, hab.held,
    hab.busy, hab.live⟩
  rw [run_succ_next (k + 1) hstart, run_add k 1 _ _ (run_delivering_go k [r] hk.le),
    run_succ_next 0 hreset, run_zero]

/-- Settles O60: at the reset the bytes are still being delivered, and after it the block is silent. -/
theorem resetAfterStallsAbortsASerialization :
    Obligations.ResetAfterStallsAbortsASerialization := by
  intro s u m n hinv hl hw hfree hrun hhost hout hreset
  obtain ⟨hbusy, -⟩ := step_of_cmdTransfer hw
  obtain ⟨hrst, hfree⟩ := resetFree_take_succ hfree
  obtain ⟨v, hv, hrun⟩ := run_succ_inv n hrun
  obtain rfl := next_inj.1
    (hv.symm.trans (step_serialize hinv hl hbusy hrst (presented_of_cmdTransfer hw)))
  obtain ⟨k, -, rfl⟩ := run_delivering_resetFree n (Nat.zero_le _) hfree hrun hhost
  have hk : k < (streamOf m s).length := by
    rwa [← not_le, ← List.drop_eq_nil_iff]
  obtain ⟨t, ht, hab⟩ := step_delivering_reset hreset
  refine ⟨t, k, _, ht, hk, hab.sinkGot, by rw [List.map_take, data_transfersOf],
    fun o ho => last_of_mem_take_transfersOf hk ho, hab.hostGot, hab.outq, hab.rspq, hab.busy,
    hab.live, fun j => ?_⟩
  obtain ⟨v, hv, hsilent⟩ := run_total (Silent t) (fun _ h => h.step_total) j { t with cmdq := [] }
    ⟨rfl, hab.outq, hab.rspq, rfl, rfl⟩
  exact ⟨v, hv, hsilent.sinkGot, hsilent.hostGot⟩

end Sys2Proof.Machine
